-- ==== Sys2Proof/Word.lean ====
section
/-!
DEFINITION. The words of emu404 CORE: the nibble, the ROM byte and the 12-bit nibble address (00_scope.md rules R5, R11).
All values are unsigned (rule R12). The operations on limbs and fields stand in Decode.lean and Machine/Operands.lean.
-/

namespace Sys2Proof

/-- A nibble: the width of a general register, of a memory cell, of an opcode and of an operand (rule R5, `NIBBLE_BITS`). -/
abbrev Nibble := BitVec 4

/-- A byte of a ROM buffer (rules R37, R56). -/
abbrev Byte := BitVec 8

/-- A nibble address, and the width of `IAR` and `ADDR` (rule R5, `ADDR_BITS`). -/
abbrev Addr := BitVec 12

/-- The number of nibble addresses (rule R5, `ADDR_SPACE`). -/
abbrev addrSpace : Nat := 4096

end Sys2Proof
end

