-- ==== Sys2Proof/Syntax.lean ====
section
/-!
DEFINITION. The instructions of emu404 CORE, one constructor for each row of spec/opcode_table.json: the ten instructions of
30_encoding.md rule R92 and the six illegal opcode values of rule R98.
-/

namespace Sys2Proof

/-- The four general registers (10_state.md rules R20, R21). -/
inductive Reg where
  | a | b | c | d
deriving DecidableEq, Repr

/-- The instructions (30_encoding.md rule R92). Every operand value is legal (rules R94 to R97), so the fields' types admit
exactly the operands that have an encoding. -/
inductive Instr where
  /-- `LDI n` (rule R120). -/
  | ldi (n : Nibble)
  /-- `LOD` (rule R125). -/
  | lod
  /-- `STR` (rule R126). -/
  | str
  /-- `SAR` (rule R127). -/
  | sar
  /-- `SAP` (rule R128). -/
  | sap
  /-- `MOV Rp, Rq`: `p` is the source, `q` the destination (rules R94, R135). -/
  | mov (p q : Reg)
  /-- `JMP {h, m, l}` (rules R96, R140). -/
  | jmp (h m l : Nibble)
  /-- `RJP` (rule R141). -/
  | rjp
  /-- `JZ {h, m, l}` (rules R96, R142). -/
  | jz (h m l : Nibble)
  /-- `NAND Rp, Rq`: `p` is the first operand and the destination (rules R94, R150). -/
  | nand (p q : Reg)
  /-- The illegal opcode `0x0` (rules R98, R160). -/
  | illegal0
  /-- The illegal opcode `0x7` (rules R98, R160). -/
  | illegal7
  /-- The illegal opcode `0xB` (rules R98, R160). -/
  | illegalB
  /-- The illegal opcode `0xC` (rules R98, R160). -/
  | illegalC
  /-- The illegal opcode `0xE` (rules R98, R160). -/
  | illegalE
  /-- The illegal opcode `0xF` (rules R98, R160). -/
  | illegalF
deriving DecidableEq, Repr

end Sys2Proof
end

