-- ==== Sys2Proof/Decode.lean ====
section
/-!
DEFINITION. Decoding and encoding (30_encoding.md). The decoder is written once, as a `Plan` that asks for one operand nibble
after the other, as rule R111 of 40_instruction_cycle.md does; `decode` runs it on a list of nibbles and the machine runs it
over `Fetch()`. The encoder is written from the formats of rule R91 and the opcode map of rule R92.
-/

namespace Sys2Proof

/-! ## Fields -/

/-- Register index to register: 0→A, 1→B, 2→C, 3→D (10_state.md rule R21). -/
def regOfIndex (i : BitVec 2) : Reg :=
  match i.toFin with
  | 0 => .a
  | 1 => .b
  | 2 => .c
  | 3 => .d

/-- Register to register index (10_state.md rule R21). -/
def indexOfReg : Reg → BitVec 2
  | .a => 0
  | .b => 1
  | .c => 2
  | .d => 3

/-- Field `p` of a format R operand nibble: bits 3..2 (rules R91, R94). -/
def fieldP (o : Nibble) : BitVec 2 := o.extractLsb' 2 2

/-- Field `q` of a format R operand nibble: bits 1..0 (rules R91, R94). -/
def fieldQ (o : Nibble) : BitVec 2 := o.extractLsb' 0 2

/-- The register that field `p` selects (rule R94). -/
def regP (o : Nibble) : Reg := regOfIndex (fieldP o)

/-- The register that field `q` selects (rule R94). -/
def regQ (o : Nibble) : Reg := regOfIndex (fieldQ o)

/-- The format R operand nibble `4*p + q` (rules R91, R94). -/
def operandR (p q : Reg) : Nibble := indexOfReg p ++ indexOfReg q

/-! ## The decoder -/

/-- What remains to be done when some nibbles of an instruction have been read: nothing, or reading one more operand nibble. -/
inductive Plan where
  | done (i : Instr)
  | need (next : Nibble → Plan)

/-- The opcode map, one row for each of the sixteen values `0x0` to `0xF` (30_encoding.md rule R92), with the operand nibbles
in their order (rules R91, R94 to R96, and 40_instruction_cycle.md rule R111). -/
def opcodeMap : Vector Plan 16 :=
  #v[.done .illegal0,
     .need fun n => .done (.ldi n),
     .done .lod,
     .done .str,
     .done .sar,
     .done .sap,
     .need fun o => .done (.mov (regP o) (regQ o)),
     .done .illegal7,
     .need fun h => .need fun m => .need fun l => .done (.jmp h m l),
     .done .rjp,
     .need fun h => .need fun m => .need fun l => .done (.jz h m l),
     .done .illegalB,
     .done .illegalC,
     .need fun o => .done (.nand (regP o) (regQ o)),
     .done .illegalE,
     .done .illegalF]

/-- What an opcode nibble asks for: its row of the opcode map. -/
def plan (op : Nibble) : Plan := opcodeMap.get op.toFin

/-- Why a list of nibbles holds no instruction. Every opcode and every operand decodes (rule R99), so the list can only end too
soon. -/
inductive DecodeError where
  /-- There is no opcode nibble. -/
  | noOpcode
  /-- The nibbles end before the instruction's last operand nibble. -/
  | operandMissing
deriving DecidableEq, Repr

/-- The decoder's answer: an instruction with the nibbles that follow it, or a rejection by name. -/
inductive Decoded where
  | ok (i : Instr) (rest : List Nibble)
  | reject (e : DecodeError)
deriving DecidableEq, Repr

/-- A plan run on a list of nibbles in address order. -/
def decodePlan : Plan → List Nibble → Decoded
  | .done i, ns => .ok i ns
  | .need _, [] => .reject .operandMissing
  | .need next, n :: ns => decodePlan (next n) ns

/-- Decoding: the first nibble is the opcode, the operands follow it in address order (rules R90, R93). -/
def decode : List Nibble → Decoded
  | [] => .reject .noOpcode
  | op :: ns => decodePlan (plan op) ns

/-- The operand nibbles of each opcode value `0x0` to `0xF` (rule R92, column "operand nibbles"). -/
def operandCounts : Vector Nat 16 :=
  #v[0, 1, 0, 0, 0, 0, 1, 0, 3, 0, 3, 0, 0, 1, 0, 0]

/-- The operand nibbles an opcode has (rules R92, R93). -/
def operandCount (op : Nibble) : Nat := operandCounts.get op.toFin

/-! ## The encoder -/

/-- The opcode nibble of an instruction (rule R92). -/
def Instr.opcode : Instr → Nibble
  | .ldi _ => 0x1
  | .lod => 0x2
  | .str => 0x3
  | .sar => 0x4
  | .sap => 0x5
  | .mov _ _ => 0x6
  | .jmp _ _ _ => 0x8
  | .rjp => 0x9
  | .jz _ _ _ => 0xA
  | .nand _ _ => 0xD
  | .illegal0 => 0x0
  | .illegal7 => 0x7
  | .illegalB => 0xB
  | .illegalC => 0xC
  | .illegalE => 0xE
  | .illegalF => 0xF

/-- The operand nibbles of an instruction, in address order (rules R91, R94 to R96). -/
def Instr.operands : Instr → List Nibble
  | .ldi n => [n]
  | .mov p q => [operandR p q]
  | .jmp h m l => [h, m, l]
  | .jz h m l => [h, m, l]
  | .nand p q => [operandR p q]
  | .lod | .str | .sar | .sap | .rjp => []
  | .illegal0 | .illegal7 | .illegalB | .illegalC | .illegalE | .illegalF => []

/-- The encoding of an instruction: its nibbles in address order (rules R90, R91). -/
def encode (i : Instr) : List Nibble := i.opcode :: i.operands

/-- The length of an instruction in nibbles (rule R92, column "length"). -/
def Instr.length : Instr → Nat
  | .ldi _ => 2
  | .mov _ _ => 2
  | .nand _ _ => 2
  | .jmp _ _ _ => 4
  | .jz _ _ _ => 4
  | .lod | .str | .sar | .sap | .rjp => 1
  | .illegal0 | .illegal7 | .illegalB | .illegalC | .illegalE | .illegalF => 1

/-! ## Words of the opcode table -/

/-- The `k` low nibbles of `w`, the most significant one first (30_encoding.md rule R103: "nibble 0 most significant"). -/
def nibblesOf (k w : Nat) : List Nibble :=
  match k with
  | 0 => []
  | k + 1 => BitVec.ofNat 4 (w / 16 ^ k) :: nibblesOf k w

/-- How many nibbles a table word has. The table gives 4, 8 or 16 bits (rule R103). A row of 4 bits handed over as a whole byte
has a high nibble of 0, which is the opcode nibble of no instruction of two nibbles; so a byte below 16 is one nibble. -/
def tableNibbleCount (nbits w : Nat) : Nat :=
  if nbits = 8 ∧ w < 16 then 1 else nbits / 4

/-- The nibbles, in address order, of the instruction whose table word is `w`: its own length, with zeros for operand nibbles the
word does not give. -/
def tableNibbles (nbits w : Nat) : List Nibble :=
  match nibblesOf (tableNibbleCount nbits w) w with
  | [] => []
  | op :: ns => op :: (ns ++ [0, 0, 0]).take (operandCount op)

/-- The instruction the decoder reads from a word of spec/opcode_table.json, numbered as rule R103 says. -/
def decodeTableWord (nbits w : Nat) : Option Instr :=
  match decode (tableNibbles nbits w) with
  | .ok i _ => some i
  | .reject _ => none

end Sys2Proof
end

