-- ==== Sys2Proof/Config.lean ====
section
/-!
DEFINITION. The configuration of emu404 CORE: what is fixed before execution begins and changed by no instruction
(00_scope.md rule R6, 10_state.md rule R37, 20_memory.md rules R51, R80). The spec decides every open point (its decisions D1 to
D20), so no free value stands here.
-/

namespace Sys2Proof

/-- What backs a mapping (20_memory.md rule R51). A ROM's buffer is configuration (rule R37); a RAM's `init` is its `RAM_INIT`
(00_scope.md rule R6), its cells being state; a DebugOutput's value is state. -/
inductive Target where
  /-- `ROM { buffer }`: an immutable byte sequence. -/
  | rom (buffer : List Byte)
  /-- `RAM { cells }`, with the nibbles the cells hold after reset. -/
  | ram (init : List Nibble)
  /-- `DebugOutput { value }`: one nibble, written only. -/
  | debugOutput
deriving DecidableEq, Repr

/-- A mapping `{ base, length, target }` (20_memory.md rule R51). The two numbers are compared as unbounded naturals (rule R52). -/
structure Mapping where
  base : Nat
  length : Nat
  target : Target
deriving DecidableEq, Repr

/-- The parameters of 00_scope.md rule R6: `MAP` (with every ROM buffer and every `RAM_INIT` in its mapping), in registration
order, and `HAS_STOP`. -/
structure Configuration where
  map : List Mapping
  hasStop : Bool
deriving DecidableEq, Repr

end Sys2Proof
end

