-- ==== Sys2Proof/WellFormed.lean ====
section
/-!
DEFINITION. Well-formed configurations (20_memory.md rule R65). An instruction needs no check of its own: every operand value is
legal (30_encoding.md rules R97, R99) and the fields of `Instr` have exactly their encodings' values, so every term of
`Instr` is well formed. What can be ill formed on this hardware is the configuration.
-/

namespace Sys2Proof

/-- Rule R65 (a): the mapping lies inside the 4096 addresses. -/
def Mapping.inSpace (m : Mapping) : Bool :=
  decide (m.base < addrSpace) && decide (m.base + m.length ≤ addrSpace)

/-- Rule R65 (b), (c), (d): the target fits the mapping's length. -/
def Mapping.targetFits (m : Mapping) : Bool :=
  match m.target with
  | .rom buffer => decide (m.length ≤ 2 * buffer.length)
  | .ram init => decide (init.length = m.length)
  | .debugOutput => decide (1 ≤ m.length)

/-- A well-formed mapping (rule R65). -/
def Mapping.wellFormed (m : Mapping) : Bool :=
  m.inSpace && m.targetFits

/-- A well-formed configuration: every mapping is. Overlap between mappings does not make it ill formed (rules R53, R65). -/
def Configuration.wellFormed (c : Configuration) : Bool :=
  c.map.all Mapping.wellFormed

end Sys2Proof
end

