-- ==== Sys2Proof/Machine/AddressSpace.lean ====
section
/-!
DEFINITION. The Address Space as far as the configuration alone determines it (20_memory.md): resolution of an address, what a
ROM holds, which RAM cells and DebugOutput values exist and what they hold after reset, and the default configuration.
-/

namespace Sys2Proof.Machine

/-! ## Resolution -/

/-- Whether a mapping contains an address: half open, no wrap-around (rule R52). -/
def contains (m : Mapping) (a : Nat) : Bool :=
  decide (m.base ≤ a) && decide (a < m.base + m.length)

/-- What an address resolves to: the mapping, its number in registration order, and the local offset (rule R54). -/
structure Hit where
  index : Nat
  mapping : Mapping
  offset : Nat
deriving DecidableEq, Repr

/-- The scan of rule R54 over the mappings from number `i` on. -/
def resolveFrom (i : Nat) : List Mapping → Nat → Option Hit
  | [], _ => none
  | m :: ms, a =>
    if contains m a then some { index := i, mapping := m, offset := a - m.base }
    else resolveFrom (i + 1) ms a

/-- `Resolve(a)`: the first mapping in registration order that contains `a`, with the local offset (rules R53, R54). -/
def resolve (map : List Mapping) (a : Nat) : Option Hit := resolveFrom 0 map a

/-! ## Targets -/

/-- The high nibble of a byte: bits 7..4 (00_scope.md rule R11). -/
def highNibble (b : Byte) : Nibble := b.extractLsb' 4 4

/-- The low nibble of a byte: bits 3..0 (00_scope.md rule R11). -/
def lowNibble (b : Byte) : Nibble := b.extractLsb' 0 4

/-- ROM read: `offset >> 1` selects the byte, the high nibble at even offsets (rule R56). `none` past the buffer, where the spec
gives the access no meaning (rule R65, decision D10). -/
def romRead (buffer : List Byte) (offset : Nat) : Option Nibble :=
  match buffer[offset / 2]? with
  | none => none
  | some b => some (if offset % 2 = 0 then highNibble b else lowNibble b)

/-- The nibble stream of a ROM image: each byte two nibbles, high nibble first (rule R68). -/
def imageNibbles : List Byte → List Nibble
  | [] => []
  | b :: bs => highNibble b :: lowNibble b :: imageNibbles bs

/-- What the RAM cell at a nibble address holds while nothing else was written to it: its `RAM_INIT` nibble (10_state.md rule R40).
`none` where the address does not resolve to a RAM cell. -/
def ramUnlisted (map : List Mapping) (a : Nat) : Option Nibble :=
  match resolve map a with
  | none => none
  | some h =>
    match h.mapping.target with
    | .ram init => init[h.offset]?
    | .rom _ => none
    | .debugOutput => none

/-- What the DebugOutput value of mapping number `i` is while nothing else was written to it: 0 (10_state.md rule R40, decision
D9). `none` where that mapping is no DebugOutput. -/
def portUnlisted (map : List Mapping) (i : Nat) : Option Nibble :=
  match map[i]? with
  | none => none
  | some m =>
    match m.target with
    | .debugOutput => some 0
    | .rom _ => none
    | .ram _ => none

/-! ## The default configuration -/

/-- `RAM_INIT` by default: all cells 0 (00_scope.md rule R6, decision D8). -/
def ramInitDefault (length : Nat) : List Nibble := List.replicate length 0

/-- The mapping list of the default configuration (rule R66): the ROM first, its length capped at 4096; the DebugOutput port at
`0x100`, one nibble long. -/
def defaultMap (romImage : List Byte) : List Mapping :=
  [{ base := 0x000, length := min (2 * romImage.length) addrSpace, target := .rom romImage },
   { base := 0x100, length := 1, target := .debugOutput }]

/-- The default configuration for a ROM image (rule R66), without the stop input (decision D6). -/
def defaultConfiguration (romImage : List Byte) : Configuration :=
  { map := defaultMap romImage, hasStop := false }

end Sys2Proof.Machine
end

