-- ==== Sys2Proof/Machine/Memory.lean ====
section
/-!
DEFINITION. Memory as plain data: a list of cells (key and nibble) in one canonical form, so that equal memories are equal lists.
The smallest addressable unit of this hardware is the nibble (20_memory.md rule R50), so a cell holds a nibble. Used for the RAM
cells, keyed by nibble address (rule R35), and for the DebugOutput values, keyed by mapping number (rule R36). Which cells exist,
and what a cell that is not listed holds, is the argument `unlisted`: `none` where there is no such cell.
-/

namespace Sys2Proof.Machine

/-- One nibble at a key. -/
abbrev Cell := Nat × Nibble

/-- The listed cells, keys strictly rising. -/
abbrev Memory := List Cell

/-- The nibble listed at a key. -/
def Memory.lookup : Memory → Nat → Option Nibble
  | [], _ => none
  | (k', v) :: m, k => if k' = k then some v else Memory.lookup m k

/-- A cell's content: the listed nibble, else what an unlisted cell holds; `none` where there is no cell. -/
def Memory.get (unlisted : Nat → Option Nibble) (m : Memory) (k : Nat) : Option Nibble :=
  match unlisted k with
  | none => none
  | some d => some ((Memory.lookup m k).getD d)

/-- List `v` at `k`, in its place. -/
def Memory.insert : Memory → Nat → Nibble → Memory
  | [], k, v => [(k, v)]
  | (k', v') :: m, k, v =>
    if k < k' then (k, v) :: (k', v') :: m
    else if k = k' then (k, v) :: m
    else (k', v') :: Memory.insert m k v

/-- Take `k` off the list. -/
def Memory.erase (m : Memory) (k : Nat) : Memory :=
  m.filter fun c => c.1 != k

/-- A write of one cell, keeping the canonical form: the value an unlisted cell holds takes the entry off. A key that has no cell
is left alone. -/
def Memory.set (unlisted : Nat → Option Nibble) (m : Memory) (k : Nat) (v : Nibble) : Memory :=
  match unlisted k with
  | none => m
  | some d => if v = d then Memory.erase m k else Memory.insert m k v

/-- The canonical form: keys strictly rising; every entry is a cell that exists and differs from what it holds unlisted. -/
def Memory.wf (unlisted : Nat → Option Nibble) (m : Memory) : Bool :=
  decide (m.Pairwise fun x y => x.1 < y.1) &&
    m.all fun c => match unlisted c.1 with
      | some d => c.2 != d
      | none => false

end Sys2Proof.Machine
end

