-- ==== Sys2Proof/Machine/State.lean ====
section
/-!
DEFINITION. The state of emu404 CORE (10_state.md rule R41) as plain data, the reasons a step can stop, and the state after
reset (rule R40).
-/

namespace Sys2Proof.Machine

/-- Why the machine stops with a fault. The hardware's one fault, the illegal opcode, is no entry here: it is modelled as the
transition to `halted` that rule R161 of 60_exceptions.md describes. -/
inductive Fault where
  /-- Raised by a fetch, a LOD or a STR whose address lies past the storage of the target it resolves to. Only a configuration
  that is not well formed (20_memory.md rule R65 (b), (c)) has such an address, and the spec gives the access no meaning
  (decision D10). Safe: the machine stops where the reference would misbehave. -/
  | beyondTarget
deriving DecidableEq, Repr

/-- Why a step is refused. -/
inductive Refusal where
  /-- Raised by no arm: every instruction has its meaning. Safe. -/
  | notModelled (mnemonic : String)
  /-- Raised by `step` for a configuration that is not well formed: "A model refuses a configuration that is not well-formed"
  (20_memory.md rule R65). Safe. -/
  | illFormedConfiguration
deriving DecidableEq, Repr

/-- The run state (10_state.md rule R31, 60_exceptions.md rules R163, R178). -/
inductive RunState where
  | running
  | halted
  | stopped
deriving DecidableEq, Repr

/-- The fault record: the illegal opcode and the address it was fetched from (10_state.md rule R32). -/
structure FaultRecord where
  opcode : Nibble
  address : Addr
deriving DecidableEq, Repr

/-- The diagnostic records (60_exceptions.md rule R170). -/
inductive Record where
  /-- `DbgWrite(v)`. -/
  | dbgWrite (v : Nibble)
  /-- `RomWriteRejected(off)`: the local nibble offset. -/
  | romWriteRejected (offset : Nat)
  /-- `IllegalInstruction(op, a)`. -/
  | illegalInstruction (opcode : Nibble) (address : Addr)
deriving DecidableEq, Repr

/-- The machine's state: the tuple of 10_state.md rule R41, the configuration it runs in, and what the host holds ready on the input
`stop_req`. -/
structure State where
  /-- Register `A` (rule R20). -/
  a : Nibble
  /-- Register `B` (rule R20). -/
  b : Nibble
  /-- Register `C` (rule R20). -/
  c : Nibble
  /-- Register `D` (rule R20). -/
  d : Nibble
  /-- `IAR`, the address of the next nibble to fetch (rules R24, R25). -/
  iar : Addr
  /-- `ADDR`, the address of LOD and STR (rules R28, R29). -/
  addr : Addr
  /-- The run state (rule R31). -/
  run : RunState
  /-- The fault record (rule R32). -/
  fault : Option FaultRecord
  /-- The RAM cells that differ from `RAM_INIT`, by nibble address (rules R35, R41). -/
  mem : Memory
  /-- The DebugOutput values that differ from 0, by mapping number (rules R36, R41). -/
  dbg : Memory
  /-- `TRACE`, oldest record first (rule R38). -/
  trace : List Record
  /-- The configuration (rule R37): no step changes it. -/
  config : Configuration
  /-- The samples of `stop_req` that the coming cycles take, oldest first; not asserted past the end (60_exceptions.md rule R178).
  The model's own way to write an input down; looked at only if `HAS_STOP`. -/
  stopInput : List Bool
deriving DecidableEq, Repr

/-- The outcome of one step. -/
abbrev Result := Host.Outcome State Fault Refusal

/-- The state after reset in a given configuration (rules R40, R190): every register 0, running, no fault record, every RAM cell at
its `RAM_INIT`, every DebugOutput value 0, `TRACE` empty. -/
def State.resetWith (config : Configuration) : State :=
  { a := 0, b := 0, c := 0, d := 0, iar := 0, addr := 0, run := .running, fault := none,
    mem := [], dbg := [], trace := [], config := config, stopInput := [] }

/-- The machine right after reset, in the default configuration (20_memory.md rule R66). The spec gives `ROM_IMAGE` no default
("supplied by the host", 00_scope.md rule R6): DESIGN CHOICE, the empty image. -/
def State.reset : State := State.resetWith (defaultConfiguration [])

end Sys2Proof.Machine
end

