-- ==== Sys2Proof/Machine/Operands.lean ====
section
/-!
DEFINITION. Operand forms: the limbs of a 12-bit register (00_scope.md rule R11, 10_state.md rule R30), a target address made of
three nibbles (30_encoding.md rule R96), and general registers by name (10_state.md rule R21). An immediate is used as it stands
(rule R95). There is one addressing mode, absolute through `ADDR` (42_load_store_address.md).
-/

namespace Sys2Proof.Machine

/-- `{h, m, l}`: three nibbles as a 12-bit number, `h` most significant (rules R13, R96). -/
def ofLimbs (h m l : Nibble) : Addr := h ++ m ++ l

/-- The high limb: bits 11..8 (rule R11). -/
def limbHigh (x : Addr) : Nibble := x.extractLsb' 8 4

/-- The mid limb: bits 7..4 (rule R11). -/
def limbMid (x : Addr) : Nibble := x.extractLsb' 4 4

/-- The low limb: bits 3..0 (rule R11). -/
def limbLow (x : Addr) : Nibble := x.extractLsb' 0 4

/-- `x[r]` (rules R13, R21). -/
def State.readReg (s : State) (r : Reg) : Nibble :=
  match r with
  | .a => s.a
  | .b => s.b
  | .c => s.c
  | .d => s.d

/-- `x[r] <- v` (rules R13, R21, R22). -/
def State.writeReg (s : State) (r : Reg) (v : Nibble) : State :=
  match r with
  | .a => { s with a := v }
  | .b => { s with b := v }
  | .c => { s with c := v }
  | .d => { s with d := v }

/-- `IAR <- t`, all three limbs (rules R13, R26). -/
def State.setIar (s : State) (t : Addr) : State := { s with iar := t }

/-- `ADDR <- t` (rule R29). -/
def State.setAddr (s : State) (t : Addr) : State := { s with addr := t }

end Sys2Proof.Machine
end

