-- ==== Sys2Proof/Machine/Ops.lean ====
section
/-!
DEFINITION. The named operations of the machine: `MemRead` and `MemWrite` (20_memory.md), `emit`, the fault entry
(60_exceptions.md), `Fetch()` and the fetching of a whole instruction (40_instruction_cycle.md), the stop input, and reset.
-/

namespace Sys2Proof.Machine

/-! ## Diagnostic records -/

/-- `emit r`: append a record to `TRACE` (00_scope.md rules R9, R13). -/
def State.emit (s : State) (r : Record) : State := { s with trace := s.trace ++ [r] }

/-! ## The Address Space -/

/-- `MemRead(a)` (20_memory.md rules R55 to R59). It changes nothing. `none` past a target's storage (rule R65). -/
def State.memRead (s : State) (a : Addr) : Option Nibble :=
  match resolve s.config.map a.toNat with
  | none => some 0
  | some h =>
    match h.mapping.target with
    | .rom buffer => romRead buffer h.offset
    | .ram _ => Memory.get (ramUnlisted s.config.map) s.mem a.toNat
    | .debugOutput => some 0

/-- The write of a RAM cell (rule R62). -/
def State.writeRam (s : State) (a : Addr) (v : Nibble) : State :=
  { s with mem := Memory.set (ramUnlisted s.config.map) s.mem a.toNat v }

/-- The write of the DebugOutput value of mapping number `i`, and its record (rule R63). -/
def State.writePort (s : State) (i : Nat) (v : Nibble) : State :=
  { s with
    dbg := Memory.set (portUnlisted s.config.map) s.dbg i v
    trace := s.trace ++ [.dbgWrite v] }

/-- `MemWrite(a, v)` (20_memory.md rules R60 to R64). `none` past a RAM's cells (rule R65). -/
def State.memWrite (s : State) (a : Addr) (v : Nibble) : Option State :=
  match resolve s.config.map a.toNat with
  | none => some s
  | some h =>
    match h.mapping.target with
    | .rom _ => some (s.emit (.romWriteRejected h.offset))
    | .ram init => if h.offset < init.length then some (s.writeRam a v) else none
    | .debugOutput => some (s.writePort h.index v)

/-- The DebugOutput value of mapping number `i` (10_state.md rules R36, R41: `dbg[m]`); `none` where that mapping is no
DebugOutput. -/
def State.dbgValue (s : State) (i : Nat) : Option Nibble :=
  Memory.get (portUnlisted s.config.map) s.dbg i

/-- Cell `off` of the RAM mapping number `i` (10_state.md rules R35, R41: `ram[m]`); `none` where there is no such cell. A cell that
an earlier mapping shadows is reached by no address (rule R53) and so keeps its `RAM_INIT`. -/
def State.ramCell (s : State) (i off : Nat) : Option Nibble :=
  match s.config.map[i]? with
  | none => none
  | some m =>
    match m.target with
    | .ram init =>
      match resolve s.config.map (m.base + off) with
      | none => init[off]?
      | some h =>
        if h.index = i then Memory.get (ramUnlisted s.config.map) s.mem (m.base + off) else init[off]?
    | .rom _ => none
    | .debugOutput => none

/-! ## Taking the exception

There is one exception (60_exceptions.md rule R160) and no return from it (rule R169). -/

/-- `raise IllegalOpcode(op, a)` (rule R161). It runs after the opcode fetch, so the address fetched from is `IAR - 1` modulo 4096
(rule R162), and `IAR` keeps its incremented value (rule R163). -/
def State.raiseIllegal (s : State) (op : Nibble) : State :=
  { s with
    fault := some { opcode := op, address := s.iar - 1 }
    trace := s.trace ++ [.illegalInstruction op (s.iar - 1)]
    run := .halted }

/-! ## Fetching -/

/-- `Fetch()`: the nibble at `IAR`, and `IAR` advanced by 1 modulo 4096 (40_instruction_cycle.md rule R110). -/
def State.fetch (s : State) : Option (Nibble × State) :=
  match s.memRead s.iar with
  | none => none
  | some n => some (n, s.setIar (s.iar + 1))

/-- The operand fetches a plan asks for, in order, before any other effect (rules R111, R112). -/
def fetchPlan : Plan → State → Option (Instr × State)
  | .done i, s => some (i, s)
  | .need next, s =>
    match s.fetch with
    | none => none
    | some (n, t) => fetchPlan (next n) t

/-- The fetches of one instruction (rule R111): the opcode nibble, then the operand nibbles its row of the opcode map asks for. -/
def fetchInstr (s : State) : Option (Instr × State) := fetchPlan (.need plan) s

/-! ## The stop input (60_exceptions.md rule R178, decision D6) -/

/-- Whether `stop_req` is sampled asserted at the start of the coming cycle; never without `HAS_STOP`. -/
def State.stopRequested (s : State) : Bool := s.config.hasStop && s.stopInput.headD false

/-- The input after the sample of one cycle; an input that does not exist is not sampled. -/
def State.takeSample (s : State) : State :=
  { s with stopInput := if s.config.hasStop then s.stopInput.tail else s.stopInput }

/-- The transition to `stopped`: no fetch, no record, nothing else changed. -/
def State.stop (s : State) : State := { s.takeSample with run := .stopped }

/-! ## Reset and configuration by the host -/

/-- The input `reset` (00_scope.md rule R8, 70_reset_and_hazards.md rules R190, R192, decision D16): the reset state from any run
state, the configuration unchanged. The host asserts it between cycles. The samples of `stop_req` are the host's and stay. -/
def State.assertReset (s : State) : State :=
  { State.resetWith s.config with stopInput := s.stopInput }

/-- One ROM mapping of one nibble for each nibble of a list, at the addresses from `at` on, modulo 4096. -/
def overlayFrom (start : Addr) : List Nibble → List Mapping
  | [] => []
  | n :: ns =>
    { base := start.toNat, length := 1, target := .rom [n ++ (0 : Nibble)] } :: overlayFrom (start + 1) ns

/-- The machine with the given nibbles where its next instruction is fetched: ROM mappings registered before all others, as the host
could have configured them, with the numbers of the other mappings moved up; the RAM cells they hide are dropped, and the machine
runs. -/
def State.placeAtIar (s : State) (ns : List Nibble) : State :=
  { s with
    config := { s.config with map := overlayFrom s.iar ns ++ s.config.map }
    mem := s.mem.filter fun c => (resolve (overlayFrom s.iar ns) c.1).isNone
    dbg := s.dbg.map fun c => (c.1 + ns.length, c.2)
    run := .running
    fault := none
    stopInput := [] }

end Sys2Proof.Machine
end

