-- ==== Sys2Proof/Machine/Illegal.lean ====
section
/-!
DEFINITION. The six illegal opcode values (30_encoding.md rule R98, 60_exceptions.md rule R160): each takes the fatal fault, with
its own opcode value recorded.
-/

namespace Sys2Proof.Machine

/-- Opcode `0x0`. -/
def execIllegal0 (s : State) : Result := .next (s.raiseIllegal 0x0)

/-- Opcode `0x7`. -/
def execIllegal7 (s : State) : Result := .next (s.raiseIllegal 0x7)

/-- Opcode `0xB`. -/
def execIllegalB (s : State) : Result := .next (s.raiseIllegal 0xB)

/-- Opcode `0xC`. -/
def execIllegalC (s : State) : Result := .next (s.raiseIllegal 0xC)

/-- Opcode `0xE`. -/
def execIllegalE (s : State) : Result := .next (s.raiseIllegal 0xE)

/-- Opcode `0xF`. -/
def execIllegalF (s : State) : Result := .next (s.raiseIllegal 0xF)

end Sys2Proof.Machine
end

