-- ==== Sys2Proof/Machine/Flags.lean ====
section
/-!
DEFINITION. Flags: the hardware has none (10_state.md rule R33). What stands here is the one condition an instruction tests, and the
one logic function, which sets no flag (45_nand.md rules R150, R151).
-/

namespace Sys2Proof.Machine

/-- The condition of JZ: all four bits of the nibble are 0 (44_jumps.md rule R142). -/
def isZero (v : Nibble) : Bool := v == 0

/-- The bitwise NAND of two nibbles, complemented within the nibble (45_nand.md rules R150, R151). -/
def nandNibble (u v : Nibble) : Nibble := ~~~(u &&& v)

end Sys2Proof.Machine
end

