-- ==== Sys2Proof/Machine/Jumps.lean ====
section
/-!
DEFINITION. Control transfer (44_jumps.md): JMP, RJP, JZ.
-/

namespace Sys2Proof.Machine

/-- `JMP`: `IAR <- {h, m, l}` (rule R140). -/
def execJmp (h m l : Nibble) (s : State) : Result := .next (s.setIar (ofLimbs h m l))

/-- `RJP`: `IAR <- {D, A, B}` (rule R141). -/
def execRjp (s : State) : Result := .next (s.setIar (ofLimbs s.d s.a s.b))

/-- `JZ`: `IAR <- {h, m, l}` if `A = 0`, else nothing more (rule R142). -/
def execJz (h m l : Nibble) (s : State) : Result :=
  .next (match isZero s.a with
    | true => s.setIar (ofLimbs h m l)
    | false => s)

end Sys2Proof.Machine
end

