-- ==== Sys2Proof/Machine/LoadImmediate.lean ====
section
/-!
DEFINITION. Load immediate (41_load_immediate.md): LDI. A meaning runs after all nibbles of its instruction were fetched, so `IAR`
already is the next sequential address (40_instruction_cycle.md rule R112).
-/

namespace Sys2Proof.Machine

/-- `LDI n`: `A <- n` (rule R120). -/
def execLdi (n : Nibble) (s : State) : Result := .next (s.writeReg .a n)

end Sys2Proof.Machine
end

