-- ==== Sys2Proof/Machine/LoadStore.lean ====
section
/-!
DEFINITION. Load, store and address register (42_load_store_address.md): LOD, STR, SAR, SAP.
-/

namespace Sys2Proof.Machine

/-- `LOD`: `A <- MemRead(ADDR)` (rule R125). -/
def execLod (s : State) : Result :=
  match s.memRead s.addr with
  | some v => .next (s.writeReg .a v)
  | none => .fault .beyondTarget

/-- `STR`: `MemWrite(ADDR, A)` (rule R126). -/
def execStr (s : State) : Result :=
  match s.memWrite s.addr s.a with
  | some t => .next t
  | none => .fault .beyondTarget

/-- `SAR`: `ADDR.mid <- A`, `ADDR.low <- B` (rule R127). -/
def execSar (s : State) : Result := .next (s.setAddr (ofLimbs (limbHigh s.addr) s.a s.b))

/-- `SAP`: `ADDR.high <- A` (rule R128). -/
def execSap (s : State) : Result := .next (s.setAddr (ofLimbs s.a (limbMid s.addr) (limbLow s.addr)))

end Sys2Proof.Machine
end

