-- ==== Sys2Proof/Machine/Logic.lean ====
section
/-!
DEFINITION. Logic (45_nand.md): NAND.
-/

namespace Sys2Proof.Machine

/-- `NAND Rp, Rq`: `x[p] <- ~(x[p] & x[q])` (rule R150, decision D4: the destination is the register of field `p`). -/
def execNand (p q : Reg) (s : State) : Result :=
  .next (s.writeReg p (nandNibble (s.readReg p) (s.readReg q)))

end Sys2Proof.Machine
end

