-- ==== Sys2Proof/Machine/Move.lean ====
section
/-!
DEFINITION. Register move (43_register_move.md): MOV.
-/

namespace Sys2Proof.Machine

/-- `MOV Rp, Rq`: `x[q] <- x[p]` (rule R135). -/
def execMov (p q : Reg) (s : State) : Result := .next (s.writeReg q (s.readReg p))

end Sys2Proof.Machine
end

