-- ==== Sys2Proof/Machine/Dispatch.lean ====
section
/-!
DEFINITION. The dispatch of 40_instruction_cycle.md rule R111: one arm for each instruction, on the state after its nibbles were
fetched.
-/

namespace Sys2Proof.Machine

def exec (i : Instr) (s : State) : Host.Outcome State Fault Refusal :=
  match i with
  | .ldi n => Sys2Proof.Machine.execLdi n s
  | .lod => Sys2Proof.Machine.execLod s
  | .str => Sys2Proof.Machine.execStr s
  | .sar => Sys2Proof.Machine.execSar s
  | .sap => Sys2Proof.Machine.execSap s
  | .mov p q => Sys2Proof.Machine.execMov p q s
  | .jmp h m l => Sys2Proof.Machine.execJmp h m l s
  | .rjp => Sys2Proof.Machine.execRjp s
  | .jz h m l => Sys2Proof.Machine.execJz h m l s
  | .nand p q => Sys2Proof.Machine.execNand p q s
  | .illegal0 => Sys2Proof.Machine.execIllegal0 s
  | .illegal7 => Sys2Proof.Machine.execIllegal7 s
  | .illegalB => Sys2Proof.Machine.execIllegalB s
  | .illegalC => Sys2Proof.Machine.execIllegalC s
  | .illegalE => Sys2Proof.Machine.execIllegalE s
  | .illegalF => Sys2Proof.Machine.execIllegalF s

end Sys2Proof.Machine
end

