-- ==== Sys2Proof/Machine/Step.lean ====
section
/-!
DEFINITION. The step of the machine: one instruction cycle (40_instruction_cycle.md rule R111).
-/

namespace Sys2Proof.Machine

/-- One step. A configuration that is not well formed is refused (20_memory.md rule R65). In `halted` and `stopped` no cycle is taken
and nothing changes (60_exceptions.md rules R163, R178). In `running` the stop input is sampled first (rule R178); then the
instruction's nibbles are fetched and its effect runs (rules R111, R112). -/
def step (s : State) : Host.Outcome State Fault Refusal :=
  match s.config.wellFormed with
  | false => .refused .illFormedConfiguration
  | true =>
    match s.run with
    | .halted => .next s
    | .stopped => .next s
    | .running =>
      match s.stopRequested with
      | true => .next s.stop
      | false =>
        match fetchInstr s.takeSample with
        | some (i, t) => exec i t
        | none => .fault .beyondTarget

/-- `s` with the instruction of a word of spec/opcode_table.json (numbered as 30_encoding.md rule R103 says) where the next step
fetches. -/
def State.withFetchWord (s : State) (nbits w : Nat) : State :=
  s.placeAtIar (tableNibbles nbits w)

end Sys2Proof.Machine
end

