-- ==== Sys2Proof/Safety.lean ====
section
/-!
DEFINITION. What claims about runs are stated in: the invariant of the machine's states, what a frame keeps, and what no rule reads.
-/

namespace Sys2Proof.Machine

/-- The illegal opcode values (30_encoding.md rule R98). -/
def illegalOpcodes : List Nibble := [0x0, 0x7, 0xB, 0xC, 0xE, 0xF]

/-- Whether a record is an `IllegalInstruction`. -/
def Record.isIllegal : Record → Bool
  | .illegalInstruction _ _ => true
  | .dbgWrite _ => false
  | .romWriteRejected _ => false

/-- `TRACE` and the fault record agree (60_exceptions.md rule R170): no `IllegalInstruction` without a fault record; with one, exactly
one, with its fields, the last record. -/
def traceAgrees (fault : Option FaultRecord) (trace : List Record) : Prop :=
  match fault with
  | none => trace.all (fun r => !r.isIllegal) = true
  | some f => ∃ before, trace = before ++ [.illegalInstruction f.opcode f.address] ∧ before.all (fun r => !r.isIllegal) = true

/-- The invariant of the machine's states. -/
structure State.Inv (s : State) : Prop where
  /-- The configuration is well formed (20_memory.md rule R65). -/
  configuration : s.config.wellFormed = true
  /-- The RAM cells are in canonical form, and every listed cell exists. -/
  ram : Memory.wf (ramUnlisted s.config.map) s.mem = true
  /-- The DebugOutput values are in canonical form, and every listed value exists. -/
  ports : Memory.wf (portUnlisted s.config.map) s.dbg = true
  /-- There is a fault record exactly in `halted` (10_state.md rule R32). -/
  faultIffHalted : s.run = .halted ↔ s.fault.isSome = true
  /-- The fault record holds an illegal opcode, and `IAR` is one past the address it was fetched from (60_exceptions.md rules R160,
  R163). -/
  faultRecord : ∀ f, s.fault = some f → f.opcode ∈ illegalOpcodes ∧ s.iar = f.address + 1
  /-- `stopped` occurs only with `HAS_STOP` (10_state.md rule R31). -/
  stoppedOnlyWithStop : s.run = .stopped → s.config.hasStop = true
  /-- `TRACE` agrees with the fault record (60_exceptions.md rule R170). -/
  trace : traceAgrees s.fault s.trace

/-- Every general register outside `written` is unchanged. -/
def KeepsRegs (written : List Reg) (s t : State) : Prop :=
  ∀ r, r ∉ written → t.readReg r = s.readReg r

/-- The run state, the fault record, the configuration and the stop input are unchanged. -/
def KeepsControl (s t : State) : Prop :=
  t.run = s.run ∧ t.fault = s.fault ∧ t.config = s.config ∧ t.stopInput = s.stopInput

/-- Every nibble of the address space reads as before, every RAM cell and every DebugOutput value is unchanged, and no record was
emitted. -/
def KeepsStorage (s t : State) : Prop :=
  (∀ x, t.memRead x = s.memRead x) ∧ (∀ i off, t.ramCell i off = s.ramCell i off) ∧
    (∀ i, t.dbgValue i = s.dbgValue i) ∧ t.trace = s.trace

/-- `IAR`, `ADDR` and every general register outside `written` are unchanged. -/
def KeepsRegisters (written : List Reg) (s t : State) : Prop :=
  KeepsRegs written s t ∧ t.iar = s.iar ∧ t.addr = s.addr

/-- The frame of an instruction that writes at most the general registers in `written`: everything else is unchanged. -/
def KeepsAllBut (written : List Reg) (s t : State) : Prop :=
  KeepsRegisters written s t ∧ KeepsControl s t ∧ KeepsStorage s t

/-- The frame of an instruction that writes `ADDR` only. -/
def KeepsAllButAddr (s t : State) : Prop :=
  KeepsRegs [] s t ∧ t.iar = s.iar ∧ KeepsControl s t ∧ KeepsStorage s t

/-- The frame of an instruction that writes `IAR` only. -/
def KeepsAllButIar (s t : State) : Prop :=
  KeepsRegs [] s t ∧ t.addr = s.addr ∧ KeepsControl s t ∧ KeepsStorage s t

/-- The nibbles `ns` stand at `IAR` and the addresses after it, modulo 4096 (30_encoding.md rule R90). -/
def State.NibblesAtIar (s : State) (ns : List Nibble) : Prop :=
  ∀ k (h : k < ns.length), s.memRead (s.iar + BitVec.ofNat 12 k) = some ns[k]

/-- The next step takes an instruction cycle: the configuration is well formed, the machine is running, and no stop is sampled. -/
def State.TakesCycle (s : State) : Prop :=
  s.config.wellFormed = true ∧ s.run = .running ∧ s.stopRequested = false

/-- The next step runs `i`: it takes a cycle, and the nibbles of `i` stand at `IAR`. -/
def State.ReadyFor (s : State) (i : Instr) : Prop :=
  s.TakesCycle ∧ s.NibblesAtIar (encode i)

/-- The state after the stop sample and the fetches of `i`, before its effect: `IAR` is past the nibbles of `i`
(40_instruction_cycle.md rule R112). -/
def State.fetched (s : State) (i : Instr) : State :=
  s.takeSample.setIar (s.iar + BitVec.ofNat 12 i.length)

/-- The effect of STR (42_load_store_address.md rule R126), by the target that `ADDR` resolves to: registers but `IAR`, which the fetch
has advanced, are unchanged, and of the storage only what rules R61 to R64 of 20_memory.md name. -/
def StrEffect (s t : State) : Prop :=
  KeepsRegisters [] s t ∧ KeepsControl s t ∧
    match resolve s.config.map s.addr.toNat with
    | none => KeepsStorage s t
    | some h =>
      match h.mapping.target with
      | .rom _ =>
        t.trace = s.trace ++ [.romWriteRejected h.offset] ∧ (∀ x, t.memRead x = s.memRead x) ∧
          (∀ i off, t.ramCell i off = s.ramCell i off) ∧ ∀ i, t.dbgValue i = s.dbgValue i
      | .ram _ =>
        t.memRead s.addr = some s.a ∧ t.ramCell h.index h.offset = some s.a ∧
          (∀ x, x ≠ s.addr → t.memRead x = s.memRead x) ∧
          (∀ i off, (i, off) ≠ (h.index, h.offset) → t.ramCell i off = s.ramCell i off) ∧
          (∀ i, t.dbgValue i = s.dbgValue i) ∧ t.trace = s.trace
      | .debugOutput =>
        t.dbgValue h.index = some s.a ∧ t.trace = s.trace ++ [.dbgWrite s.a] ∧
          (∀ i, i ≠ h.index → t.dbgValue i = s.dbgValue i) ∧ (∀ x, t.memRead x = s.memRead x) ∧
          ∀ i off, t.ramCell i off = s.ramCell i off

/-- The effect of an illegal opcode `op` fetched from `address` (60_exceptions.md rule R161): the fault record, the trace record and
`halted`; nothing else changes. -/
def IllegalEffect (op : Nibble) (address : Addr) (s t : State) : Prop :=
  t.run = .halted ∧ t.fault = some { opcode := op, address := address } ∧
    t.trace = s.trace ++ [.illegalInstruction op address] ∧ KeepsRegisters [] s t ∧
    t.config = s.config ∧ t.stopInput = s.stopInput ∧ (∀ x, t.memRead x = s.memRead x) ∧
    (∀ i off, t.ramCell i off = s.ramCell i off) ∧ ∀ i, t.dbgValue i = s.dbgValue i

/-- The part of the state that a later step can depend on: all but the DebugOutput values and `TRACE` (10_state.md rules R36, R38). -/
def State.observed (s : State) : State := { s with dbg := [], trace := [] }

end Sys2Proof.Machine
end

