-- ==== Sys2Proof/Certificates/Slice0/Obligations.lean ====
section
/-!
DEFINITION. The statements for the provers. A statement about an instruction says what `exec` answers on the state after the
instruction's nibbles were fetched and, where it says so, what `step` answers on a state where the instruction's nibbles stand at
`IAR`. `State.fetched` is the state between: the stop sample taken and `IAR` past the nibbles.
-/

open Sys2Proof Sys2Proof.Machine

/-! ## Encoding -/

/-- Decoding and encoding agree, for every instruction with every operand and every list of nibbles: a list decodes to `i` with
`rest` left over exactly if it is the encoding of `i` followed by `rest` (30_encoding.md sections 1 and 2). -/
def Obligations.DecodeAgreesWithEncode : Prop :=
  ∀ (ns : List Nibble) (i : Instr) (rest : List Nibble), decode ns = .ok i rest ↔ ns = encode i ++ rest

/-- 30_encoding.md rule R93: the opcode nibble alone fixes how many nibbles an instruction has; an illegal opcode takes no operand.
That every opcode with enough nibbles after it decodes is rule R99, which the spec marks as derived. The rejection of a list that ends
too soon, as `operandMissing`, is the model's own and no rule of the spec (log entry 24, DEDUCED): the machine itself always finds
operand nibbles at the addresses after the opcode. -/
def Obligations.OpcodeFixesLength : Prop :=
  ∀ (op : Nibble) (ns : List Nibble),
    (operandCount op ≤ ns.length →
      ∃ i, decode (op :: ns) = .ok i (ns.drop (operandCount op)) ∧ i.opcode = op ∧ i.length = 1 + operandCount op) ∧
    (ns.length < operandCount op → decode (op :: ns) = .reject .operandMissing) ∧
    (op ∈ illegalOpcodes → operandCount op = 0)

/-- Words written out from 30_encoding.md rules R91, R92 and R101 and the worked examples of the instruction rules. The
rejection of the last list is the model's own (log entry 24, DEDUCED). -/
def Obligations.SpecWordsDecode : Prop :=
  decode [0x1, 0x2] = .ok (.ldi 2) [] ∧ decode [0x2, 0x7] = .ok .lod [0x7] ∧ decode [0x3] = .ok .str [] ∧
  decode [0x4] = .ok .sar [] ∧ decode [0x5] = .ok .sap [] ∧ decode [0x6, 0x9] = .ok (.mov .c .b) [] ∧
  decode [0x8, 0x0, 0x2, 0xA] = .ok (.jmp 0 2 0xA) [] ∧ decode [0x9] = .ok .rjp [] ∧
  decode [0xA, 0x0, 0x0, 0x5] = .ok (.jz 0 0 5) [] ∧ decode [0xD, 0x2] = .ok (.nand .a .c) [] ∧
  decode [0x7] = .ok .illegal7 [] ∧ decode [0x0] = .ok .illegal0 [] ∧ decode [0x8, 0x1] = .reject .operandMissing

/-- 30_encoding.md section 2: the operand nibble of MOV and NAND splits into `p`, bits 3..2, and `q`, bits 1..0, each a register
index with 0 for A, 1 for B, 2 for C, 3 for D. -/
def Obligations.OperandNibbleSplitsIntoRegisters : Prop :=
  (∀ (o : Nibble) (rest : List Nibble),
    decode (0x6 :: o :: rest) =
      .ok (.mov (regOfIndex (BitVec.ofNat 2 (o.toNat / 4))) (regOfIndex (BitVec.ofNat 2 (o.toNat % 4)))) rest ∧
    decode (0xD :: o :: rest) =
      .ok (.nand (regOfIndex (BitVec.ofNat 2 (o.toNat / 4))) (regOfIndex (BitVec.ofNat 2 (o.toNat % 4)))) rest) ∧
  regOfIndex 0 = .a ∧ regOfIndex 1 = .b ∧ regOfIndex 2 = .c ∧ regOfIndex 3 = .d

/-! ## The cycle -/

/-- A step runs the decoded instruction: where a cycle is taken and the nibbles at `IAR` decode to `i`, the step is `exec` of `i` on the
state with the stop sample taken and `IAR` past the nibbles of `i`. -/
def Obligations.StepRunsDecodedInstruction : Prop :=
  ∀ (s : State) (ns : List Nibble) (i : Instr) (rest : List Nibble),
    s.TakesCycle → s.NibblesAtIar ns → decode ns = .ok i rest →
    step s = exec i (s.takeSample.setIar (s.iar + BitVec.ofNat 12 i.length))

/-- Every cycle runs exactly one instruction, whatever stands at `IAR`: decoding is total (30_encoding.md rule R99), and the step is
`exec` of the instruction whose nibbles stand there. -/
def Obligations.EveryCycleRunsOneInstruction : Prop :=
  ∀ s : State, s.TakesCycle → ∃! i : Instr, s.ReadyFor i ∧ step s = exec i (s.fetched i)

/-- 40_instruction_cycle.md rule R110: `Fetch()` returns the nibble at `IAR` and advances `IAR` by exactly 1 modulo 4096; nothing
else changes. -/
def Obligations.FetchReadsThenAdvances : Prop :=
  ∀ s : State, s.config.wellFormed = true →
    ∃ n t, s.memRead s.iar = some n ∧ s.fetch = some (n, t) ∧ t.iar.toNat = (s.iar.toNat + 1) % 4096 ∧
      KeepsRegs [] s t ∧ t.addr = s.addr ∧ KeepsControl s t ∧ KeepsStorage s t

/-- 60_exceptions.md section 1: in `halted` no cycle is taken and nothing changes, `IAR` stays one past the fault address, and
`reset` leaves it. Rests on the spec's decisions D15 and D20 (log entry 17), D7 for the fault address (log entry 16) and D16 (log entry
10). That the step then answers the same state as a next state is the model's choice (log entry 9, DESIGN CHOICE). -/
def Obligations.HaltedIsAbsorbing : Prop :=
  ∀ s : State, s.Inv → s.run = .halted →
    step s = .next s ∧ (∃ f, s.fault = some f ∧ s.iar = f.address + 1) ∧ s.assertReset.run = .running

/-- 60_exceptions.md section 5, the optional stop input: asserted at the start of a cycle it leads to `stopped` with nothing else
changed; `stopped` is absorbing and has no fault record; without `HAS_STOP` there is no stop. Rests on the spec's decision D6 (log
entry 20) and, for reset, D16 (log entry 10). The list of samples (log entry 8) and the unchanged next state in `stopped` (log entry 9)
are the model's choices. -/
def Obligations.StopInputStopsBeforeFetch : Prop :=
  (∀ (s : State) (later : List Bool), s.config.wellFormed = true → s.run = .running → s.config.hasStop = true →
    s.stopInput = true :: later → step s = .next { s with run := .stopped, stopInput := later }) ∧
  (∀ s : State, s.Inv → s.run = .stopped → step s = .next s ∧ s.fault = none ∧ s.assertReset.run = .running) ∧
  (∀ s t : State, s.config.hasStop = false → s.run = .running → step s = .next t →
    t.run ≠ .stopped ∧ t.stopInput = s.stopInput)

/-! ## Instructions -/

/-- 41_load_immediate.md rule R120. -/
def Obligations.LdiLoadsImmediate : Prop :=
  ∀ n : Nibble,
    encode (.ldi n) = [0x1, n] ∧
    (∀ s : State, ∃ t, exec (.ldi n) s = .next t ∧ t.a = n ∧ KeepsAllBut [.a] s t) ∧
    (∀ s : State, s.ReadyFor (.ldi n) →
      ∃ t, step s = .next t ∧ t.a = n ∧ t.iar = s.iar + 2 ∧ KeepsAllBut [.a] (s.fetched (.ldi n)) t)

/-- 42_load_store_address.md rule R125: `A` becomes what the Address Space answers at `ADDR`; a load never faults. -/
def Obligations.LodLoadsFromAddr : Prop :=
  encode .lod = [0x2] ∧
  (∀ s : State, s.config.wellFormed = true →
    ∃ t, exec .lod s = .next t ∧ s.memRead s.addr = some t.a ∧ KeepsAllBut [.a] s t) ∧
  (∀ s : State, s.ReadyFor .lod →
    ∃ t, step s = .next t ∧ s.memRead s.addr = some t.a ∧ t.iar = s.iar + 1 ∧ KeepsAllBut [.a] (s.fetched .lod) t)

/-- 42_load_store_address.md, STR: the write of `A` at `ADDR`, by target; a store never faults. The unmapped case rests on the
spec's decision D3 (log entry 13), the offset of the rejection record on D17 (log entry 19), and the one value of a DebugOutput
mapping, whatever the offset, on D11 (log entry 18). -/
def Obligations.StrStoresByTarget : Prop :=
  encode .str = [0x3] ∧
  (∀ s : State, s.config.wellFormed = true → ∃ t, exec .str s = .next t ∧ StrEffect s t) ∧
  (∀ s : State, s.ReadyFor .str → ∃ t, step s = .next t ∧ t.iar = s.iar + 1 ∧ StrEffect (s.fetched .str) t)

/-- 42_load_store_address.md rule R127. -/
def Obligations.SarSetsMidAndLow : Prop :=
  encode .sar = [0x4] ∧
  (∀ s : State, ∃ t, exec .sar s = .next t ∧ limbHigh t.addr = limbHigh s.addr ∧ limbMid t.addr = s.a ∧ limbLow t.addr = s.b ∧
    KeepsAllButAddr s t) ∧
  (∀ s : State, s.ReadyFor .sar →
    ∃ t, step s = .next t ∧ limbHigh t.addr = limbHigh s.addr ∧ limbMid t.addr = s.a ∧ limbLow t.addr = s.b ∧
      t.iar = s.iar + 1 ∧ KeepsAllButAddr (s.fetched .sar) t)

/-- 42_load_store_address.md rule R128. -/
def Obligations.SapSetsHigh : Prop :=
  encode .sap = [0x5] ∧
  (∀ s : State, ∃ t, exec .sap s = .next t ∧ limbHigh t.addr = s.a ∧ limbMid t.addr = limbMid s.addr ∧
    limbLow t.addr = limbLow s.addr ∧ KeepsAllButAddr s t) ∧
  (∀ s : State, s.ReadyFor .sap →
    ∃ t, step s = .next t ∧ limbHigh t.addr = s.a ∧ limbMid t.addr = limbMid s.addr ∧ limbLow t.addr = limbLow s.addr ∧
      t.iar = s.iar + 1 ∧ KeepsAllButAddr (s.fetched .sap) t)

/-- 43_register_move.md rule R135: the register of field `q` gets the value of the register of field `p`; with `p = q` no register
changes. -/
def Obligations.MovCopiesHighFieldToLowField : Prop :=
  ∀ p q : Reg,
    encode (.mov p q) = [0x6, BitVec.ofNat 4 (4 * (indexOfReg p).toNat + (indexOfReg q).toNat)] ∧
    (∀ s : State, ∃ t, exec (.mov p q) s = .next t ∧ t.readReg q = s.readReg p ∧ KeepsAllBut [q] s t ∧
      (p = q → KeepsRegs [] s t)) ∧
    (∀ s : State, s.ReadyFor (.mov p q) →
      ∃ t, step s = .next t ∧ t.readReg q = s.readReg p ∧ t.iar = s.iar + 2 ∧ KeepsAllBut [q] (s.fetched (.mov p q)) t ∧
        (p = q → KeepsRegs [] s t))

/-- 45_nand.md: each bit of the result depends on the same bit of the two operands, and is 0 exactly if both are 1. That the register
of field `p` is written is the spec's decision D4 (log entry 14). -/
def Obligations.NandWritesComplementOfAnd : Prop :=
  ∀ p q : Reg,
    encode (.nand p q) = [0xD, BitVec.ofNat 4 (4 * (indexOfReg p).toNat + (indexOfReg q).toNat)] ∧
    (∀ s : State, ∃ t, exec (.nand p q) s = .next t ∧
      (∀ k < 4, (t.readReg p).getLsbD k = !((s.readReg p).getLsbD k && (s.readReg q).getLsbD k)) ∧
      (t.readReg p).toNat = 15 - (s.readReg p &&& s.readReg q).toNat ∧ KeepsAllBut [p] s t) ∧
    (∀ s : State, s.ReadyFor (.nand p q) →
      ∃ t, step s = .next t ∧ (t.readReg p).toNat = 15 - (s.readReg p &&& s.readReg q).toNat ∧ t.iar = s.iar + 2 ∧
        KeepsAllBut [p] (s.fetched (.nand p q)) t)

/-- 45_nand.md section on synthesis: `NAND R, S` then `NAND R, R` leaves the AND of `R` and `S` in `R` and changes nothing else; `NAND R, R`
complements `R`. The destination is decision D4 (log entry 14). -/
def Obligations.NandPairIsAnd : Prop :=
  (∀ (r u : Reg) (s : State), r ≠ u →
    ∃ t t', exec (.nand r u) s = .next t ∧ exec (.nand r r) t = .next t' ∧ t'.readReg r = s.readReg r &&& s.readReg u ∧
      KeepsAllBut [r] s t') ∧
  (∀ (r : Reg) (s : State), ∃ t, exec (.nand r r) s = .next t ∧ t.readReg r = ~~~s.readReg r ∧ KeepsAllBut [r] s t)

/-- 44_jumps.md rule R140. -/
def Obligations.JmpSetsIar : Prop :=
  ∀ h m l : Nibble,
    encode (.jmp h m l) = [0x8, h, m, l] ∧
    (∀ s : State, ∃ t, exec (.jmp h m l) s = .next t ∧ t.iar.toNat = h.toNat * 256 + m.toNat * 16 + l.toNat ∧
      KeepsAllButIar s t) ∧
    (∀ s : State, s.ReadyFor (.jmp h m l) →
      ∃ t, step s = .next t ∧ t.iar.toNat = h.toNat * 256 + m.toNat * 16 + l.toNat ∧
        KeepsAllButIar (s.fetched (.jmp h m l)) t)

/-- 44_jumps.md rule R141: high limb from `D`, mid from `A`, low from `B`. -/
def Obligations.RjpSetsIarFromRegisters : Prop :=
  encode .rjp = [0x9] ∧
  (∀ s : State, ∃ t, exec .rjp s = .next t ∧ t.iar.toNat = s.d.toNat * 256 + s.a.toNat * 16 + s.b.toNat ∧
    KeepsAllButIar s t) ∧
  (∀ s : State, s.ReadyFor .rjp →
    ∃ t, step s = .next t ∧ t.iar.toNat = s.d.toNat * 256 + s.a.toNat * 16 + s.b.toNat ∧
      KeepsAllButIar (s.fetched .rjp) t)

/-- 44_jumps.md rule R142: taken exactly if all of `A` is 0; not taken, `IAR` is past the four nibbles all the same. -/
def Obligations.JzBranchesOnZeroA : Prop :=
  ∀ h m l : Nibble,
    encode (.jz h m l) = [0xA, h, m, l] ∧
    (∀ s : State, ∃ t, exec (.jz h m l) s = .next t ∧
      t.iar.toNat = (if s.a = 0 then h.toNat * 256 + m.toNat * 16 + l.toNat else s.iar.toNat) ∧ KeepsAllButIar s t) ∧
    (∀ s : State, s.ReadyFor (.jz h m l) →
      ∃ t, step s = .next t ∧
        t.iar.toNat = (if s.a = 0 then h.toNat * 256 + m.toNat * 16 + l.toNat else (s.iar.toNat + 4) % 4096) ∧
        KeepsAllButIar (s.fetched (.jz h m l)) t)

/-- 60_exceptions.md section 1: each of the six illegal opcodes halts the machine with its opcode and the address it was fetched
from, also when that is 4095, and changes nothing else. Rests on the spec's decisions D7, D15 and D20 (log entries 16 and 17). -/
def Obligations.IllegalOpcodeHalts : Prop :=
  ∀ i ∈ [Instr.illegal0, .illegal7, .illegalB, .illegalC, .illegalE, .illegalF],
    encode i = [i.opcode] ∧ i.opcode ∈ illegalOpcodes ∧
    (∀ s : State, ∃ t, exec i s = .next t ∧ IllegalEffect i.opcode (s.iar - 1) s t) ∧
    (∀ s : State, s.ReadyFor i →
      ∃ t, step s = .next t ∧ t.iar = s.iar + 1 ∧ IllegalEffect i.opcode s.iar (s.fetched i) t)

/-! ## The Address Space -/

/-- 20_memory.md section 1: resolution finds the first mapping in registration order that contains the address, and the local offset;
it finds none exactly if no mapping contains the address. The half-open range and the subtraction are the spec's decisions D17 to
D19 (log entry 19). -/
def Obligations.ResolveFindsFirstMapping : Prop :=
  ∀ (map : List Mapping) (x : Nat),
    (∀ h : Hit, resolve map x = some h ↔
      map[h.index]? = some h.mapping ∧ (h.mapping.base ≤ x ∧ x < h.mapping.base + h.mapping.length) ∧
      h.offset = x - h.mapping.base ∧
      ∀ j m, j < h.index → map[j]? = some m → ¬(m.base ≤ x ∧ x < m.base + m.length)) ∧
    (resolve map x = none ↔ ∀ m ∈ map, ¬(m.base ≤ x ∧ x < m.base + m.length))

/-- 20_memory.md rules R56 and R68: byte `k` of a ROM image supplies the nibbles at offsets `2k` (bits 7..4) and `2k+1` (bits 3..0);
the ROM read at offset `k` is nibble `k` of the image. -/
def Obligations.RomReadsHighNibbleFirst : Prop :=
  ∀ buffer : List Byte,
    (∀ k, romRead buffer k = (imageNibbles buffer)[k]?) ∧
    (∀ k b, buffer[k]? = some b →
      romRead buffer (2 * k) = some (BitVec.ofNat 4 (b.toNat / 16)) ∧
      romRead buffer (2 * k + 1) = some (BitVec.ofNat 4 (b.toNat % 16)))

/-- 20_memory.md rules R57 and R62: an address that resolves to a RAM reads as the cell at its local offset; a write changes that cell
and no other, emits no record, and the read after it gives the value written. That the cell holds its `RAM_INIT` nibble after reset is
the spec's decision D8 (log entry 2), and that the local offset is the address minus the base, in nibbles, is its decision D17 (log
entry 19). -/
def Obligations.RamReadReturnsLastWrite : Prop :=
  ∀ (s : State) (x : Addr) (v : Nibble) (h : Hit) (init : List Nibble),
    s.config.wellFormed = true → resolve s.config.map x.toNat = some h → h.mapping.target = .ram init →
    s.memRead x = s.ramCell h.index h.offset ∧ (State.resetWith s.config).memRead x = init[h.offset]? ∧
    ∃ t, s.memWrite x v = some t ∧ t.memRead x = some v ∧ t.ramCell h.index h.offset = some v ∧
      (∀ y, y ≠ x → t.memRead y = s.memRead y) ∧
      (∀ i off, (i, off) ≠ (h.index, h.offset) → t.ramCell i off = s.ramCell i off) ∧
      KeepsRegisters [] s t ∧ KeepsControl s t ∧ (∀ i, t.dbgValue i = s.dbgValue i) ∧ t.trace = s.trace

/-- 20_memory.md rule R61: a write that resolves to a ROM leaves the ROM as it is and emits `RomWriteRejected` with the local offset.
That offset, the address minus the base in nibbles, is the spec's decision D17 (log entry 19). -/
def Obligations.RomWriteIsRejected : Prop :=
  ∀ (s : State) (x : Addr) (v : Nibble) (h : Hit) (buffer : List Byte),
    resolve s.config.map x.toNat = some h → h.mapping.target = .rom buffer →
    ∃ t, s.memWrite x v = some t ∧ t.trace = s.trace ++ [.romWriteRejected h.offset] ∧ t.memRead x = s.memRead x ∧
      (∀ y, t.memRead y = s.memRead y) ∧ KeepsRegisters [] s t ∧ KeepsControl s t ∧ ∀ i, t.dbgValue i = s.dbgValue i

/-- 20_memory.md rules R58 and R63: the DebugOutput reads as 0 whatever was written; every write stores the value and emits `DbgWrite`.
That every address of a longer mapping reaches the one value, the offset ignored, is the spec's decision D11 (log entry 18). -/
def Obligations.DebugOutputWriteEmits : Prop :=
  ∀ (s : State) (x : Addr) (v : Nibble) (h : Hit),
    resolve s.config.map x.toNat = some h → h.mapping.target = .debugOutput →
    s.memRead x = some 0 ∧
    ∃ t, s.memWrite x v = some t ∧ t.dbgValue h.index = some v ∧ t.trace = s.trace ++ [.dbgWrite v] ∧ t.memRead x = some 0 ∧
      (∀ y, t.memRead y = s.memRead y) ∧ KeepsRegisters [] s t ∧ KeepsControl s t ∧
      ∀ i, i ≠ h.index → t.dbgValue i = s.dbgValue i

/-- 20_memory.md, unmapped accesses: a read gives 0, a write changes nothing and emits nothing. The spec's decisions D2 and D3 (log
entry 13); the half-open range is D18 (log entry 19). -/
def Obligations.UnmappedAccessIsZeroAndNoOp : Prop :=
  ∀ (s : State) (x : Addr) (v : Nibble), (∀ m ∈ s.config.map, ¬(m.base ≤ x.toNat ∧ x.toNat < m.base + m.length)) →
    s.memRead x = some 0 ∧ s.memWrite x v = some s

/-- In a well-formed configuration every read and every write at every one of the 4096 addresses answers. The refusal of other
configurations is the spec's decision D10 (log entry 18). -/
def Obligations.WellFormedAccessesAnswer : Prop :=
  ∀ s : State, s.config.wellFormed = true →
    ∀ (x : Addr) (v : Nibble), (∃ n, s.memRead x = some n) ∧ ∃ t, s.memWrite x v = some t

/-- 20_memory.md section 2: a configuration is well formed exactly by conditions (a) to (d), and a step in one that is not is
refused. The conditions are the spec's decisions D10, D11 and D18 (log entry 18). -/
def Obligations.IllFormedConfigurationIsRefused : Prop :=
  (∀ c : Configuration, c.wellFormed = true ↔
    ∀ m ∈ c.map, (m.base ≤ 4095 ∧ m.base + m.length ≤ 4096) ∧
      (∀ buffer, m.target = .rom buffer → m.length ≤ 2 * buffer.length) ∧
      (∀ init, m.target = .ram init → init.length = m.length) ∧
      (m.target = .debugOutput → 1 ≤ m.length)) ∧
  ∀ s : State, s.config.wellFormed = false → step s = .refused .illFormedConfiguration

/-- 20_memory.md section 2: in the default configuration, for every ROM image of any length, every address reads as its nibble of
the image, and as 0 past the image, the port included; and that configuration is well formed. The order of the two mappings and the
value 0 of an unmapped address are the spec's decisions D5 and D2 (log entries 15 and 13). -/
def Obligations.DefaultConfigurationReadsImage : Prop :=
  ∀ (image : List Byte) (s : State), s.config = defaultConfiguration image →
    s.config.wellFormed = true ∧ ∀ x : Addr, s.memRead x = some ((imageNibbles image).getD x.toNat 0)

/-- 20_memory.md section 2: in the default configuration a ROM image of more than 128 bytes hides the port: a write at `0x100` is a
rejected ROM write and no step emits `DbgWrite`. With 128 bytes or fewer the write reaches the port. Rests on the spec's decision
D5 (log entry 15) and, for the offset in the record, on D17 (log entry 19). -/
def Obligations.LongImageHidesPort : Prop :=
  ∀ (image : List Byte) (s : State), s.config = defaultConfiguration image →
    (128 < image.length →
      s.memRead 0x100 = romRead image 0x100 ∧
      (∀ v, s.memWrite 0x100 v = some (s.emit (.romWriteRejected 0x100))) ∧
      ∀ t, step s = .next t → ∀ v, .dbgWrite v ∉ t.trace.drop s.trace.length) ∧
    (image.length ≤ 128 →
      ∀ v, ∃ t, s.memWrite 0x100 v = some t ∧ t.trace = s.trace ++ [.dbgWrite v] ∧ t.dbgValue 1 = some v)

/-- 20_memory.md rule R77: a nibble stored into RAM is what the very next fetch from that address reads. -/
def Obligations.StoredNibbleIsFetched : Prop :=
  ∀ (s : State) (h : Hit) (init : List Nibble),
    s.config.wellFormed = true → resolve s.config.map s.addr.toNat = some h → h.mapping.target = .ram init → s.iar = s.addr →
    ∃ t u, exec .str s = .next t ∧ t.fetch = some (s.a, u)

/-! ## Whole-machine rules -/

/-- Every step keeps the invariant: the configuration well formed, RAM cells and DebugOutput values in canonical form and existing, a
fault record exactly in `halted`, holding an illegal opcode with `IAR` one past its address, `stopped` only with `HAS_STOP`, and in
`TRACE` no `IllegalInstruction` but, in `halted`, the last record, with the fault record's fields. Rests on the spec's decisions D15 and
D20 for `halted` and for `IAR` one past the fault address (log entry 17), D7 for that address (log entry 16), D6 for `stopped` (log entry
20), and D10, D11 and D18 for what a well-formed configuration is and the refusal of any other (log entry 18). -/
def Obligations.EveryStepKeepsInvariant : Prop :=
  ∀ s t : State, s.Inv → step s = .next t → t.Inv

/-- Reset leaves the values of 10_state.md section 6, in every well-formed configuration: a state that meets the invariant, every RAM
cell at its `RAM_INIT`, every DebugOutput value 0. Registers, RAM and DebugOutput values at reset are the spec's decisions D1, D8 and
D9 (log entries 1, 2 and 5); the empty `TRACE` is D16 (log entries 10 and 21). `State.reset` is in the default configuration with the
empty ROM image (log entry 7, DESIGN CHOICE). -/
def Obligations.ResetSatisfiesInvariant : Prop :=
  State.reset.Inv ∧
  ∀ c : Configuration, c.wellFormed = true →
    (State.resetWith c).Inv ∧ (∀ r, (State.resetWith c).readReg r = 0) ∧ (State.resetWith c).iar = 0 ∧
    (State.resetWith c).addr = 0 ∧ (State.resetWith c).run = .running ∧ (State.resetWith c).fault = none ∧
    (State.resetWith c).trace = [] ∧
    (∀ i m init off, c.map[i]? = some m → m.target = .ram init → (State.resetWith c).ramCell i off = init[off]?) ∧
    ∀ i m, c.map[i]? = some m → m.target = .debugOutput → (State.resetWith c).dbgValue i = some 0

/-- Reset from any state, `halted` and `stopped` among them, gives a running machine that meets the invariant, with the configuration
unchanged. The spec's decision D16 (log entry 10). The list of stop samples, which reset leaves to the host, is the model's (log entry
8, DESIGN CHOICE). -/
def Obligations.ResetRestoresFromAnyState : Prop :=
  ∀ s : State, s.config.wellFormed = true →
    s.assertReset.Inv ∧ s.assertReset.config = s.config ∧ s.assertReset.run = .running ∧
    { s.assertReset with stopInput := [] } = State.resetWith s.config

/-- In a well-formed configuration every step answers a next state, an illegal opcode and the states `halted` and `stopped` among them
(60_exceptions.md section 1, rules R161, R163 and R165). Two of these next states are choices: in `halted` and `stopped`, where rule R163
says that no cycle is taken, the step answers the same state (the model's, log entry 9, DESIGN CHOICE), and an illegal opcode leads to
the run state `halted` and is no fault of the model (the spec's decision D15, log entry 17, DESIGN CHOICE). -/
def Obligations.WellFormedMachineAlwaysSteps : Prop :=
  ∀ s : State, s.config.wellFormed = true → ∃ t, step s = .next t

/-- A program halts the machine in no way but by an illegal opcode at `IAR`: a cycle ends in `halted` exactly if the nibble at `IAR` is
one of the six, with that nibble and the address it was fetched from in the fault record; every other cycle ends in `running`. Rests
on the spec's decisions D7 and D15 (log entries 16 and 17). -/
def Obligations.HaltsOnlyOnIllegalOpcode : Prop :=
  ∀ s t : State, s.TakesCycle → step s = .next t →
    (t.run = .halted → ∃ op ∈ illegalOpcodes, s.memRead s.iar = some op ∧
      t.fault = some { opcode := op, address := s.iar }) ∧
    (∀ op ∈ illegalOpcodes, s.memRead s.iar = some op → t.run = .halted) ∧
    (t.run = .halted ∨ t.run = .running)

/-- Execution from an unmapped address or from the DebugOutput port halts at once with opcode 0 and that address. Rests on the spec's
decision D2 (log entry 13), for what halting is and where it leaves `IAR` on D15 and D20 (log entry 17), and for the fault address on D7
(log entry 16). -/
def Obligations.ExecutionOffTheMapHalts : Prop :=
  ∀ s : State, s.TakesCycle →
    (∀ h, resolve s.config.map s.iar.toNat = some h → h.mapping.target = .debugOutput) →
    ∃ t, step s = .next t ∧ t.iar = s.iar + 1 ∧ IllegalEffect 0 s.iar (s.fetched .illegal0) t

/-- 70_reset_and_hazards.md section 2: with nothing mapped at address 0 the first step after reset halts with
`IllegalInstruction(0, 0x000)` and `IAR = 1`. Rests on the spec's decisions D2 (log entry 13), D15 and D20 (log entry 17). -/
def Obligations.EmptyAddressZeroHaltsAtOnce : Prop :=
  ∀ c : Configuration, c.wellFormed = true → resolve c.map 0 = none →
    ∃ t, step (State.resetWith c) = .next t ∧ t.run = .halted ∧ t.fault = some { opcode := 0, address := 0 } ∧
      t.trace = [.illegalInstruction 0 0] ∧ t.iar = 1

/-- 20_memory.md rule R80 and 10_state.md rule R37: no step changes the mapping list or a ROM buffer. That these stand in a field of the
state, with `RAM_INIT` and `HAS_STOP`, which no step changes either, is the model's choice (log entry 6, DESIGN CHOICE); `HAS_STOP` is
the spec's decision D6 (log entry 20). -/
def Obligations.ConfigurationNeverChanges : Prop :=
  ∀ s t : State, step s = .next t → t.config = s.config

/-- 10_state.md rule R29: `ADDR` is written only by SAR (mid limb from `A`, low limb from `B`), by SAP (high limb from `A`) and by
reset; it is read only by LOD and STR: on every other instruction another value of `ADDR` changes nothing but `ADDR`. The value 0 is rule R40;
reset from any state is the spec's decision D16 (log entry 10). -/
def Obligations.AddrRoles : Prop :=
  (∀ (i : Instr) (s t : State), exec i s = .next t → i ≠ .sar → i ≠ .sap → t.addr = s.addr) ∧
  (∀ s t : State, exec .sar s = .next t → t.addr = ofLimbs (limbHigh s.addr) s.a s.b) ∧
  (∀ s t : State, exec .sap s = .next t → t.addr = ofLimbs s.a (limbMid s.addr) (limbLow s.addr)) ∧
  (∀ s : State, s.assertReset.addr = 0) ∧
  (∀ (i : Instr) (s t : State) (x : Addr), i ≠ .lod → i ≠ .str → exec i s = .next t →
    ∃ y, exec i (s.setAddr x) = .next (t.setAddr y))

/-- 10_state.md rule R26: `IAR` changes by a fetch (1 modulo 4096 each), by JMP, RJP and a taken JZ, and by reset, and in no other
way; the net effect of each instruction. In `halted` and `stopped`, and when a stop is sampled, it does not change. That `IAR` keeps its
incremented value after an illegal opcode and in `halted` is the spec's decision D20 (log entry 17), the stop and the state `stopped` are
D6 (log entry 20), and reset from any state is D16 (log entry 10). That a step in `halted` and `stopped` answers the same state is the
model's choice (log entry 9, DESIGN CHOICE). -/
def Obligations.IarChangesOnlyAsListed : Prop :=
  (∀ (s : State) (n : Nibble) (t : State), s.fetch = some (n, t) → t.iar.toNat = (s.iar.toNat + 1) % 4096) ∧
  (∀ (i : Instr) (s t : State), s.ReadyFor i → step s = .next t →
    t.iar = match i with
      | .jmp h m l => ofLimbs h m l
      | .rjp => ofLimbs s.d s.a s.b
      | .jz h m l => if s.a = 0 then ofLimbs h m l else s.iar + 4
      | .ldi _ | .mov _ _ | .nand _ _ => s.iar + 2
      | .lod | .str | .sar | .sap => s.iar + 1
      | .illegal0 | .illegal7 | .illegalB | .illegalC | .illegalE | .illegalF => s.iar + 1) ∧
  (∀ s t : State, step s = .next t → (s.run ≠ .running ∨ s.stopRequested = true) → t.iar = s.iar) ∧
  ∀ s : State, s.assertReset.iar = 0

/-- 10_state.md section 1, which instruction writes which general register: a register that differs after an instruction is `A` of
LDI or LOD, the `q` of a MOV or the `p` of a NAND. Which of the two NAND writes is the spec's decision D4 (log entry 14). -/
def Obligations.GeneralRegisterWriters : Prop :=
  ∀ (i : Instr) (s t : State) (r : Reg), exec i s = .next t → t.readReg r ≠ s.readReg r →
    (r = .a ∧ ((∃ n, i = .ldi n) ∨ i = .lod)) ∨ (∃ p, i = .mov p r) ∨ ∃ q, i = .nand r q

/-- 10_state.md section 1: `C` has no fixed role. On every instruction but MOV and NAND another value of `C` changes nothing but `C`. -/
def Obligations.RegisterCHasNoFixedRole : Prop :=
  ∀ (i : Instr) (s t : State) (v : Nibble), (∀ p q, i ≠ .mov p q ∧ i ≠ .nand p q) → exec i s = .next t →
    exec i (s.writeReg .c v) = .next (t.writeReg .c v)

/-- 10_state.md rule R38 and 60_exceptions.md rule R170: `TRACE` is append-only, a step appends at most one record, and an instruction
emits only as rule R170 says: STR on a ROM or a DebugOutput, an illegal opcode, no other. The offset in the
record is the spec's decision D17 (log entry 19), the address D7 (log entry 16). -/
def Obligations.TraceIsAppendOnly : Prop :=
  (∀ s t : State, step s = .next t → t.trace = s.trace ∨ ∃ r, t.trace = s.trace ++ [r]) ∧
  ∀ (i : Instr) (s t : State), exec i s = .next t → t.trace ≠ s.trace →
    (i = .str ∧ ∃ h, resolve s.config.map s.addr.toNat = some h ∧
      ((∃ buffer, h.mapping.target = .rom buffer ∧ t.trace = s.trace ++ [.romWriteRejected h.offset]) ∨
       (h.mapping.target = .debugOutput ∧ t.trace = s.trace ++ [.dbgWrite s.a]))) ∨
    (i.opcode ∈ illegalOpcodes ∧ t.trace = s.trace ++ [.illegalInstruction i.opcode (s.iar - 1)])

/-- 10_state.md rules R36, R38 and R39: no rule reads a DebugOutput value or `TRACE`. Two states that differ in these alone step to
states that differ in these alone, and emit the same records. -/
def Obligations.HiddenStateIsNeverObserved : Prop :=
  ∀ s s' t : State, s.observed = s'.observed → step s = .next t →
    ∃ t' records, step s' = .next t' ∧ t.observed = t'.observed ∧
      t.trace = s.trace ++ records ∧ t'.trace = s'.trace ++ records

/-- 70_reset_and_hazards.md rule R199: a JMP to its own address, without a stop input, is a step that changes nothing and emits
nothing. -/
def Obligations.JmpToItselfChangesNothing : Prop :=
  ∀ (s : State) (h m l : Nibble), s.ReadyFor (.jmp h m l) → s.config.hasStop = false → ofLimbs h m l = s.iar →
    step s = .next s

/-- 10_state.md rules R24 and R28, 00_scope.md rule R11: the value of a 12-bit register is `high*256 + mid*16 + low`, and its limbs are
what it was made of. -/
def Obligations.LimbsMakeTheAddress : Prop :=
  (∀ h m l : Nibble, (ofLimbs h m l).toNat = h.toNat * 256 + m.toNat * 16 + l.toNat ∧
    limbHigh (ofLimbs h m l) = h ∧ limbMid (ofLimbs h m l) = m ∧ limbLow (ofLimbs h m l) = l) ∧
  ∀ x : Addr, ofLimbs (limbHigh x) (limbMid x) (limbLow x) = x ∧
    x.toNat = (limbHigh x).toNat * 256 + (limbMid x).toNat * 16 + (limbLow x).toNat
end

