-- ==== Sys2Proof/Laws/AddressSpace.lean ====
section
/-!
SUPPORT. The laws of address resolution and of well-formed configurations.
-/

namespace Sys2Proof.Machine

/-- A mapping contains exactly the addresses of its half-open range. -/
theorem contains_iff (m : Mapping) (a : Nat) : contains m a = true ↔ m.base ≤ a ∧ a < m.base + m.length := by
  simp [contains]

/-- What a scan from number `i` on finds: a mapping of the list that contains the address, with its number and local offset. -/
theorem resolveFrom_some {ms : List Mapping} {i a : Nat} {h : Hit} (hr : resolveFrom i ms a = some h) :
    i ≤ h.index ∧ ms[h.index - i]? = some h.mapping ∧ contains h.mapping a = true ∧ h.offset = a - h.mapping.base := by
  induction ms generalizing i with
  | nil => simp [resolveFrom] at hr
  | cons m ms ih =>
    simp only [resolveFrom] at hr
    split at hr
    · rename_i hc
      cases hr
      simp [hc]
    · obtain ⟨h1, h2, h3, h4⟩ := ih hr
      refine ⟨by omega, ?_, h3, h4⟩
      rw [show h.index - i = (h.index - (i + 1)) + 1 by omega, List.getElem?_cons_succ]
      exact h2

/-- What `resolve` finds: a mapping of the configuration, by its number, that contains the address; the offset is local. -/
theorem resolve_some {map : List Mapping} {a : Nat} {h : Hit} (hr : resolve map a = some h) :
    map[h.index]? = some h.mapping ∧ h.mapping.base ≤ a ∧ a < h.mapping.base + h.mapping.length ∧
      h.offset = a - h.mapping.base := by
  obtain ⟨_, h2, h3, h4⟩ := resolveFrom_some hr
  rw [contains_iff] at h3
  exact ⟨by simpa using h2, h3.1, h3.2, h4⟩

/-- Different addresses never share a mapping number and a local offset. -/
theorem resolve_injective {map : List Mapping} {a a' : Nat} {h h' : Hit} (hr : resolve map a = some h) (hr' : resolve map a' = some h')
    (hi : h.index = h'.index) (ho : h.offset = h'.offset) : a = a' := by
  obtain ⟨h1, h2, _, h4⟩ := resolve_some hr
  obtain ⟨h1', h2', _, h4'⟩ := resolve_some hr'
  rw [hi, h1'] at h1
  have hm : h'.mapping = h.mapping := by simpa using h1
  rw [hm] at h2' h4'
  omega

/-- Every mapping of a well-formed configuration is well formed. -/
theorem mapping_wellFormed {c : Configuration} (hc : c.wellFormed = true) {i : Nat} {m : Mapping} (hm : c.map[i]? = some m) :
    m.wellFormed = true := by
  exact List.all_eq_true.mp hc m (List.mem_of_getElem? hm)

/-- In a well-formed configuration no address lies past the buffer of the ROM it resolves to. -/
theorem rom_in_buffer {c : Configuration} (hc : c.wellFormed = true) {a : Nat} {h : Hit} {buffer : List Byte}
    (hr : resolve c.map a = some h) (ht : h.mapping.target = .rom buffer) : h.offset / 2 < buffer.length := by
  obtain ⟨h1, h2, h3, h4⟩ := resolve_some hr
  have hw := mapping_wellFormed hc h1
  simp only [Mapping.wellFormed, Mapping.targetFits, ht, Bool.and_eq_true, decide_eq_true_eq] at hw
  omega

/-- In a well-formed configuration no address lies past the cells of the RAM it resolves to. -/
theorem ram_in_cells {c : Configuration} (hc : c.wellFormed = true) {a : Nat} {h : Hit} {init : List Nibble}
    (hr : resolve c.map a = some h) (ht : h.mapping.target = .ram init) : h.offset < init.length := by
  obtain ⟨h1, h2, h3, h4⟩ := resolve_some hr
  have hw := mapping_wellFormed hc h1
  simp only [Mapping.wellFormed, Mapping.targetFits, ht, Bool.and_eq_true, decide_eq_true_eq] at hw
  omega

/-- A ROM answers at every offset inside its buffer. -/
theorem romRead_of_lt {buffer : List Byte} {offset : Nat} (h : offset / 2 < buffer.length) :
    romRead buffer offset = some (if offset % 2 = 0 then highNibble buffer[offset / 2] else lowNibble buffer[offset / 2]) := by
  simp [romRead, List.getElem?_eq_getElem h]

/-- What an unlisted cell holds at an address that resolves to a RAM: its `RAM_INIT` nibble. -/
theorem ramUnlisted_ram {map : List Mapping} {a : Nat} {h : Hit} {init : List Nibble} (hr : resolve map a = some h)
    (ht : h.mapping.target = .ram init) : ramUnlisted map a = init[h.offset]? := by
  simp only [ramUnlisted, hr, ht]

/-- What an unlisted DebugOutput value is: 0. -/
theorem portUnlisted_port {map : List Mapping} {i : Nat} {m : Mapping} (hm : map[i]? = some m) (ht : m.target = .debugOutput) :
    portUnlisted map i = some 0 := by
  simp only [portUnlisted, hm, ht]

end Sys2Proof.Machine
end

