-- ==== Sys2Proof/Laws/Memory.lean ====
section
/-!
SUPPORT. The laws of memory: a read after a write of the same cell gives the value written, a write leaves every other cell alone,
and every operation keeps the canonical form.
-/

namespace Sys2Proof.Machine

theorem lookup_insert_same (m : Memory) (k : Nat) (v : Nibble) : Memory.lookup (Memory.insert m k v) k = some v := by
  induction m with
  | nil => simp [Memory.insert, Memory.lookup]
  | cons c m ih =>
    simp only [Memory.insert]
    split
    · simp [Memory.lookup]
    · split
      · simp [Memory.lookup]
      · rename_i hne
        simp [Memory.lookup, ih, Ne.symm hne]

theorem lookup_insert_other (m : Memory) {k j : Nat} (v : Nibble) (h : j ≠ k) :
    Memory.lookup (Memory.insert m k v) j = Memory.lookup m j := by
  induction m with
  | nil => simp [Memory.insert, Memory.lookup, h.symm]
  | cons c m ih =>
    simp only [Memory.insert]
    split
    · simp [Memory.lookup, h.symm]
    · split
      · rename_i hk
        subst hk
        simp [Memory.lookup, h.symm]
      · simp [Memory.lookup, ih]

theorem lookup_erase_same (m : Memory) (k : Nat) : Memory.lookup (Memory.erase m k) k = none := by
  induction m with
  | nil => rfl
  | cons c m ih =>
    simp only [Memory.erase, List.filter_cons] at ih ⊢
    split
    · rename_i hne
      simp only [Memory.lookup, ih]
      simpa using hne
    · exact ih

theorem lookup_erase_other (m : Memory) {k j : Nat} (h : j ≠ k) :
    Memory.lookup (Memory.erase m k) j = Memory.lookup m j := by
  induction m with
  | nil => rfl
  | cons c m ih =>
    simp only [Memory.erase, List.filter_cons] at ih ⊢
    split
    · simp only [Memory.lookup, ih]
    · rename_i heq
      have hk : c.1 = k := by simpa using heq
      simp only [Memory.lookup, ih, hk, if_neg h.symm]

/-- A read after a write of the same cell, where there is such a cell. -/
theorem get_set_same {unlisted : Nat → Option Nibble} {k : Nat} {d : Nibble} (h : unlisted k = some d) (m : Memory) (v : Nibble) :
    Memory.get unlisted (Memory.set unlisted m k v) k = some v := by
  simp only [Memory.get, Memory.set, h]
  split
  · rename_i hv
    simp [lookup_erase_same, hv]
  · simp [lookup_insert_same]

theorem lookup_set_other (unlisted : Nat → Option Nibble) (m : Memory) {k j : Nat} (v : Nibble) (h : j ≠ k) :
    Memory.lookup (Memory.set unlisted m k v) j = Memory.lookup m j := by
  unfold Memory.set
  cases unlisted k with
  | none => rfl
  | some d =>
    simp only
    split
    · exact lookup_erase_other m h
    · exact lookup_insert_other m v h

/-- A write leaves every other cell alone. -/
theorem get_set_other (unlisted : Nat → Option Nibble) (m : Memory) {k j : Nat} (v : Nibble) (h : j ≠ k) :
    Memory.get unlisted (Memory.set unlisted m k v) j = Memory.get unlisted m j := by
  simp only [Memory.get, lookup_set_other unlisted m v h]

/-- With nothing listed a cell holds what an unlisted cell holds. -/
@[simp] theorem get_nil (unlisted : Nat → Option Nibble) (k : Nat) : Memory.get unlisted [] k = unlisted k := by
  simp only [Memory.get, Memory.lookup]
  cases unlisted k <;> rfl

/-- A read answers exactly where there is a cell. -/
theorem get_isSome (unlisted : Nat → Option Nibble) (m : Memory) (k : Nat) :
    (Memory.get unlisted m k).isSome = (unlisted k).isSome := by
  simp only [Memory.get]
  cases unlisted k <;> rfl

/-! ## The canonical form -/

@[simp] theorem wf_nil (unlisted : Nat → Option Nibble) : Memory.wf unlisted [] = true := by
  simp [Memory.wf]

/-- The canonical form in words: keys rise, every entry is a cell that exists and differs from what it holds unlisted. -/
theorem wf_iff (unlisted : Nat → Option Nibble) (m : Memory) :
    Memory.wf unlisted m = true ↔
      m.Pairwise (fun x y => x.1 < y.1) ∧ ∀ c ∈ m, ∃ d, unlisted c.1 = some d ∧ c.2 ≠ d := by
  simp only [Memory.wf, Bool.and_eq_true, decide_eq_true_eq, List.all_eq_true]
  refine and_congr_right fun _ => forall₂_congr fun c _ => ?_
  cases unlisted c.1 <;> simp

theorem mem_insert {m : Memory} {k : Nat} {v : Nibble} {c : Cell} (h : c ∈ Memory.insert m k v) : c = (k, v) ∨ c ∈ m := by
  induction m with
  | nil => simpa [Memory.insert] using h
  | cons c' m ih =>
    simp only [Memory.insert] at h
    split at h
    · simpa using h
    · split at h
      · simp only [List.mem_cons] at h ⊢
        tauto
      · simp only [List.mem_cons] at h ⊢
        rcases h with h | h
        · exact Or.inr (Or.inl h)
        · rcases ih h with h | h <;> tauto

theorem insert_sorted {m : Memory} (k : Nat) (v : Nibble) (h : m.Pairwise fun x y => x.1 < y.1) :
    (Memory.insert m k v).Pairwise fun x y => x.1 < y.1 := by
  induction m with
  | nil => simp [Memory.insert]
  | cons c m ih =>
    obtain ⟨hc, hm⟩ := List.pairwise_cons.mp h
    simp only [Memory.insert]
    split
    · rename_i hlt
      refine List.pairwise_cons.mpr ⟨fun c' hc' => ?_, h⟩
      rcases List.mem_cons.mp hc' with rfl | hc'
      · exact hlt
      · exact Nat.lt_trans hlt (hc c' hc')
    · split
      · rename_i heq
        subst heq
        exact List.pairwise_cons.mpr ⟨hc, hm⟩
      · refine List.pairwise_cons.mpr ⟨fun c' hc' => ?_, ih hm⟩
        rcases mem_insert hc' with rfl | hc'
        · simp only
          omega
        · exact hc c' hc'

/-- Every write keeps the canonical form. -/
theorem set_wf {unlisted : Nat → Option Nibble} {m : Memory} (h : Memory.wf unlisted m = true) (k : Nat) (v : Nibble) :
    Memory.wf unlisted (Memory.set unlisted m k v) = true := by
  obtain ⟨hs, hd⟩ := (wf_iff unlisted m).mp h
  simp only [Memory.set]
  cases hk : unlisted k with
  | none => exact h
  | some d =>
    simp only
    split
    · exact (wf_iff _ _).mpr ⟨hs.filter _, fun c hc => hd c (List.mem_of_mem_filter hc)⟩
    · rename_i hv
      refine (wf_iff _ _).mpr ⟨insert_sorted k v hs, fun c hc => ?_⟩
      rcases mem_insert hc with rfl | hc
      · exact ⟨d, hk, hv⟩
      · exact hd c hc

end Sys2Proof.Machine
end

