-- ==== Sys2Proof/Laws/State.lean ====
section
/-!
SUPPORT. One lemma for each field of State and each update of it, and for each derived reading (registers, memory, RAM cells,
DebugOutput values), so that no proof unfolds a record update.
-/

namespace Sys2Proof.Machine

/-! ## Reading through the fields -/

theorem readReg_congr {s t : State} (ha : t.a = s.a) (hb : t.b = s.b) (hc : t.c = s.c) (hd : t.d = s.d) (r : Reg) :
    t.readReg r = s.readReg r := by
  cases r <;> assumption

theorem memRead_congr {s t : State} (hc : t.config = s.config) (hm : t.mem = s.mem) (x : Addr) :
    t.memRead x = s.memRead x := by
  simp only [State.memRead, hc, hm]

theorem ramCell_congr {s t : State} (hc : t.config = s.config) (hm : t.mem = s.mem) (i off : Nat) :
    t.ramCell i off = s.ramCell i off := by
  simp only [State.ramCell, hc, hm]

theorem dbgValue_congr {s t : State} (hc : t.config = s.config) (hd : t.dbg = s.dbg) (i : Nat) :
    t.dbgValue i = s.dbgValue i := by
  simp only [State.dbgValue, hc, hd]

/-! ## writeReg -/

@[simp] theorem writeReg_iar (s : State) (r : Reg) (v : Nibble) : (s.writeReg r v).iar = s.iar := by
  cases r <;> rfl

@[simp] theorem writeReg_addr (s : State) (r : Reg) (v : Nibble) : (s.writeReg r v).addr = s.addr := by
  cases r <;> rfl

@[simp] theorem writeReg_run (s : State) (r : Reg) (v : Nibble) : (s.writeReg r v).run = s.run := by
  cases r <;> rfl

@[simp] theorem writeReg_fault (s : State) (r : Reg) (v : Nibble) : (s.writeReg r v).fault = s.fault := by
  cases r <;> rfl

@[simp] theorem writeReg_mem (s : State) (r : Reg) (v : Nibble) : (s.writeReg r v).mem = s.mem := by
  cases r <;> rfl

@[simp] theorem writeReg_dbg (s : State) (r : Reg) (v : Nibble) : (s.writeReg r v).dbg = s.dbg := by
  cases r <;> rfl

@[simp] theorem writeReg_trace (s : State) (r : Reg) (v : Nibble) : (s.writeReg r v).trace = s.trace := by
  cases r <;> rfl

@[simp] theorem writeReg_config (s : State) (r : Reg) (v : Nibble) : (s.writeReg r v).config = s.config := by
  cases r <;> rfl

@[simp] theorem writeReg_stopInput (s : State) (r : Reg) (v : Nibble) : (s.writeReg r v).stopInput = s.stopInput := by
  cases r <;> rfl

@[simp] theorem readReg_writeReg_same (s : State) (r : Reg) (v : Nibble) : (s.writeReg r v).readReg r = v := by
  cases r <;> rfl

theorem readReg_writeReg_other (s : State) {q r : Reg} (v : Nibble) (h : q ≠ r) : (s.writeReg r v).readReg q = s.readReg q := by
  cases q <;> cases r <;> first | rfl | exact absurd rfl h

@[simp] theorem writeReg_memRead (s : State) (r : Reg) (v : Nibble) (x : Addr) : (s.writeReg r v).memRead x = s.memRead x := memRead_congr (by simp) (by simp) x

@[simp] theorem writeReg_ramCell (s : State) (r : Reg) (v : Nibble) (i off : Nat) : (s.writeReg r v).ramCell i off = s.ramCell i off := ramCell_congr (by simp) (by simp) i off

@[simp] theorem writeReg_dbgValue (s : State) (r : Reg) (v : Nibble) (i : Nat) : (s.writeReg r v).dbgValue i = s.dbgValue i := dbgValue_congr (by simp) (by simp) i

/-! ## setIar -/

@[simp] theorem setIar_a (s : State) (t : Addr) : (s.setIar t).a = s.a := rfl

@[simp] theorem setIar_b (s : State) (t : Addr) : (s.setIar t).b = s.b := rfl

@[simp] theorem setIar_c (s : State) (t : Addr) : (s.setIar t).c = s.c := rfl

@[simp] theorem setIar_d (s : State) (t : Addr) : (s.setIar t).d = s.d := rfl

@[simp] theorem setIar_iar (s : State) (t : Addr) : (s.setIar t).iar = t := rfl

@[simp] theorem setIar_addr (s : State) (t : Addr) : (s.setIar t).addr = s.addr := rfl

@[simp] theorem setIar_run (s : State) (t : Addr) : (s.setIar t).run = s.run := rfl

@[simp] theorem setIar_fault (s : State) (t : Addr) : (s.setIar t).fault = s.fault := rfl

@[simp] theorem setIar_mem (s : State) (t : Addr) : (s.setIar t).mem = s.mem := rfl

@[simp] theorem setIar_dbg (s : State) (t : Addr) : (s.setIar t).dbg = s.dbg := rfl

@[simp] theorem setIar_trace (s : State) (t : Addr) : (s.setIar t).trace = s.trace := rfl

@[simp] theorem setIar_config (s : State) (t : Addr) : (s.setIar t).config = s.config := rfl

@[simp] theorem setIar_stopInput (s : State) (t : Addr) : (s.setIar t).stopInput = s.stopInput := rfl

@[simp] theorem setIar_readReg (s : State) (t : Addr) (r : Reg) : (s.setIar t).readReg r = s.readReg r := by
  cases r <;> rfl

@[simp] theorem setIar_memRead (s : State) (t : Addr) (x : Addr) : (s.setIar t).memRead x = s.memRead x := memRead_congr (by simp) (by simp) x

@[simp] theorem setIar_ramCell (s : State) (t : Addr) (i off : Nat) : (s.setIar t).ramCell i off = s.ramCell i off := ramCell_congr (by simp) (by simp) i off

@[simp] theorem setIar_dbgValue (s : State) (t : Addr) (i : Nat) : (s.setIar t).dbgValue i = s.dbgValue i := dbgValue_congr (by simp) (by simp) i

/-! ## setAddr -/

@[simp] theorem setAddr_a (s : State) (t : Addr) : (s.setAddr t).a = s.a := rfl

@[simp] theorem setAddr_b (s : State) (t : Addr) : (s.setAddr t).b = s.b := rfl

@[simp] theorem setAddr_c (s : State) (t : Addr) : (s.setAddr t).c = s.c := rfl

@[simp] theorem setAddr_d (s : State) (t : Addr) : (s.setAddr t).d = s.d := rfl

@[simp] theorem setAddr_iar (s : State) (t : Addr) : (s.setAddr t).iar = s.iar := rfl

@[simp] theorem setAddr_addr (s : State) (t : Addr) : (s.setAddr t).addr = t := rfl

@[simp] theorem setAddr_run (s : State) (t : Addr) : (s.setAddr t).run = s.run := rfl

@[simp] theorem setAddr_fault (s : State) (t : Addr) : (s.setAddr t).fault = s.fault := rfl

@[simp] theorem setAddr_mem (s : State) (t : Addr) : (s.setAddr t).mem = s.mem := rfl

@[simp] theorem setAddr_dbg (s : State) (t : Addr) : (s.setAddr t).dbg = s.dbg := rfl

@[simp] theorem setAddr_trace (s : State) (t : Addr) : (s.setAddr t).trace = s.trace := rfl

@[simp] theorem setAddr_config (s : State) (t : Addr) : (s.setAddr t).config = s.config := rfl

@[simp] theorem setAddr_stopInput (s : State) (t : Addr) : (s.setAddr t).stopInput = s.stopInput := rfl

@[simp] theorem setAddr_readReg (s : State) (t : Addr) (r : Reg) : (s.setAddr t).readReg r = s.readReg r := by
  cases r <;> rfl

@[simp] theorem setAddr_memRead (s : State) (t : Addr) (x : Addr) : (s.setAddr t).memRead x = s.memRead x := memRead_congr (by simp) (by simp) x

@[simp] theorem setAddr_ramCell (s : State) (t : Addr) (i off : Nat) : (s.setAddr t).ramCell i off = s.ramCell i off := ramCell_congr (by simp) (by simp) i off

@[simp] theorem setAddr_dbgValue (s : State) (t : Addr) (i : Nat) : (s.setAddr t).dbgValue i = s.dbgValue i := dbgValue_congr (by simp) (by simp) i

/-! ## emit -/

@[simp] theorem emit_a (s : State) (r : Record) : (s.emit r).a = s.a := rfl

@[simp] theorem emit_b (s : State) (r : Record) : (s.emit r).b = s.b := rfl

@[simp] theorem emit_c (s : State) (r : Record) : (s.emit r).c = s.c := rfl

@[simp] theorem emit_d (s : State) (r : Record) : (s.emit r).d = s.d := rfl

@[simp] theorem emit_iar (s : State) (r : Record) : (s.emit r).iar = s.iar := rfl

@[simp] theorem emit_addr (s : State) (r : Record) : (s.emit r).addr = s.addr := rfl

@[simp] theorem emit_run (s : State) (r : Record) : (s.emit r).run = s.run := rfl

@[simp] theorem emit_fault (s : State) (r : Record) : (s.emit r).fault = s.fault := rfl

@[simp] theorem emit_mem (s : State) (r : Record) : (s.emit r).mem = s.mem := rfl

@[simp] theorem emit_dbg (s : State) (r : Record) : (s.emit r).dbg = s.dbg := rfl

@[simp] theorem emit_trace (s : State) (r : Record) : (s.emit r).trace = s.trace ++ [r] := rfl

@[simp] theorem emit_config (s : State) (r : Record) : (s.emit r).config = s.config := rfl

@[simp] theorem emit_stopInput (s : State) (r : Record) : (s.emit r).stopInput = s.stopInput := rfl

@[simp] theorem emit_readReg (s : State) (e : Record) (r : Reg) : (s.emit e).readReg r = s.readReg r := by
  cases r <;> rfl

@[simp] theorem emit_memRead (s : State) (r : Record) (x : Addr) : (s.emit r).memRead x = s.memRead x := memRead_congr (by simp) (by simp) x

@[simp] theorem emit_ramCell (s : State) (r : Record) (i off : Nat) : (s.emit r).ramCell i off = s.ramCell i off := ramCell_congr (by simp) (by simp) i off

@[simp] theorem emit_dbgValue (s : State) (r : Record) (i : Nat) : (s.emit r).dbgValue i = s.dbgValue i := dbgValue_congr (by simp) (by simp) i

/-! ## writeRam -/

@[simp] theorem writeRam_a (s : State) (x : Addr) (v : Nibble) : (s.writeRam x v).a = s.a := rfl

@[simp] theorem writeRam_b (s : State) (x : Addr) (v : Nibble) : (s.writeRam x v).b = s.b := rfl

@[simp] theorem writeRam_c (s : State) (x : Addr) (v : Nibble) : (s.writeRam x v).c = s.c := rfl

@[simp] theorem writeRam_d (s : State) (x : Addr) (v : Nibble) : (s.writeRam x v).d = s.d := rfl

@[simp] theorem writeRam_iar (s : State) (x : Addr) (v : Nibble) : (s.writeRam x v).iar = s.iar := rfl

@[simp] theorem writeRam_addr (s : State) (x : Addr) (v : Nibble) : (s.writeRam x v).addr = s.addr := rfl

@[simp] theorem writeRam_run (s : State) (x : Addr) (v : Nibble) : (s.writeRam x v).run = s.run := rfl

@[simp] theorem writeRam_fault (s : State) (x : Addr) (v : Nibble) : (s.writeRam x v).fault = s.fault := rfl

@[simp] theorem writeRam_mem (s : State) (x : Addr) (v : Nibble) : (s.writeRam x v).mem = Memory.set (ramUnlisted s.config.map) s.mem x.toNat v := rfl

@[simp] theorem writeRam_dbg (s : State) (x : Addr) (v : Nibble) : (s.writeRam x v).dbg = s.dbg := rfl

@[simp] theorem writeRam_trace (s : State) (x : Addr) (v : Nibble) : (s.writeRam x v).trace = s.trace := rfl

@[simp] theorem writeRam_config (s : State) (x : Addr) (v : Nibble) : (s.writeRam x v).config = s.config := rfl

@[simp] theorem writeRam_stopInput (s : State) (x : Addr) (v : Nibble) : (s.writeRam x v).stopInput = s.stopInput := rfl

@[simp] theorem writeRam_readReg (s : State) (x : Addr) (v : Nibble) (r : Reg) : (s.writeRam x v).readReg r = s.readReg r := by
  cases r <;> rfl

@[simp] theorem writeRam_dbgValue (s : State) (x : Addr) (v : Nibble) (i : Nat) : (s.writeRam x v).dbgValue i = s.dbgValue i := dbgValue_congr (by simp) (by simp) i

/-! ## writePort -/

@[simp] theorem writePort_a (s : State) (i : Nat) (v : Nibble) : (s.writePort i v).a = s.a := rfl

@[simp] theorem writePort_b (s : State) (i : Nat) (v : Nibble) : (s.writePort i v).b = s.b := rfl

@[simp] theorem writePort_c (s : State) (i : Nat) (v : Nibble) : (s.writePort i v).c = s.c := rfl

@[simp] theorem writePort_d (s : State) (i : Nat) (v : Nibble) : (s.writePort i v).d = s.d := rfl

@[simp] theorem writePort_iar (s : State) (i : Nat) (v : Nibble) : (s.writePort i v).iar = s.iar := rfl

@[simp] theorem writePort_addr (s : State) (i : Nat) (v : Nibble) : (s.writePort i v).addr = s.addr := rfl

@[simp] theorem writePort_run (s : State) (i : Nat) (v : Nibble) : (s.writePort i v).run = s.run := rfl

@[simp] theorem writePort_fault (s : State) (i : Nat) (v : Nibble) : (s.writePort i v).fault = s.fault := rfl

@[simp] theorem writePort_mem (s : State) (i : Nat) (v : Nibble) : (s.writePort i v).mem = s.mem := rfl

@[simp] theorem writePort_dbg (s : State) (i : Nat) (v : Nibble) : (s.writePort i v).dbg = Memory.set (portUnlisted s.config.map) s.dbg i v := rfl

@[simp] theorem writePort_trace (s : State) (i : Nat) (v : Nibble) : (s.writePort i v).trace = s.trace ++ [.dbgWrite v] := rfl

@[simp] theorem writePort_config (s : State) (i : Nat) (v : Nibble) : (s.writePort i v).config = s.config := rfl

@[simp] theorem writePort_stopInput (s : State) (i : Nat) (v : Nibble) : (s.writePort i v).stopInput = s.stopInput := rfl

@[simp] theorem writePort_readReg (s : State) (i : Nat) (v : Nibble) (r : Reg) : (s.writePort i v).readReg r = s.readReg r := by
  cases r <;> rfl

@[simp] theorem writePort_memRead (s : State) (i : Nat) (v : Nibble) (x : Addr) : (s.writePort i v).memRead x = s.memRead x := memRead_congr (by simp) (by simp) x

@[simp] theorem writePort_ramCell (s : State) (j : Nat) (v : Nibble) (i off : Nat) : (s.writePort j v).ramCell i off = s.ramCell i off := ramCell_congr (by simp) (by simp) i off

/-! ## raiseIllegal -/

@[simp] theorem raiseIllegal_a (s : State) (op : Nibble) : (s.raiseIllegal op).a = s.a := rfl

@[simp] theorem raiseIllegal_b (s : State) (op : Nibble) : (s.raiseIllegal op).b = s.b := rfl

@[simp] theorem raiseIllegal_c (s : State) (op : Nibble) : (s.raiseIllegal op).c = s.c := rfl

@[simp] theorem raiseIllegal_d (s : State) (op : Nibble) : (s.raiseIllegal op).d = s.d := rfl

@[simp] theorem raiseIllegal_iar (s : State) (op : Nibble) : (s.raiseIllegal op).iar = s.iar := rfl

@[simp] theorem raiseIllegal_addr (s : State) (op : Nibble) : (s.raiseIllegal op).addr = s.addr := rfl

@[simp] theorem raiseIllegal_run (s : State) (op : Nibble) : (s.raiseIllegal op).run = .halted := rfl

@[simp] theorem raiseIllegal_fault (s : State) (op : Nibble) : (s.raiseIllegal op).fault = some { opcode := op, address := s.iar - 1 } := rfl

@[simp] theorem raiseIllegal_mem (s : State) (op : Nibble) : (s.raiseIllegal op).mem = s.mem := rfl

@[simp] theorem raiseIllegal_dbg (s : State) (op : Nibble) : (s.raiseIllegal op).dbg = s.dbg := rfl

@[simp] theorem raiseIllegal_trace (s : State) (op : Nibble) : (s.raiseIllegal op).trace = s.trace ++ [.illegalInstruction op (s.iar - 1)] := rfl

@[simp] theorem raiseIllegal_config (s : State) (op : Nibble) : (s.raiseIllegal op).config = s.config := rfl

@[simp] theorem raiseIllegal_stopInput (s : State) (op : Nibble) : (s.raiseIllegal op).stopInput = s.stopInput := rfl

@[simp] theorem raiseIllegal_readReg (s : State) (op : Nibble) (r : Reg) : (s.raiseIllegal op).readReg r = s.readReg r := by
  cases r <;> rfl

@[simp] theorem raiseIllegal_memRead (s : State) (op : Nibble) (x : Addr) : (s.raiseIllegal op).memRead x = s.memRead x := memRead_congr (by simp) (by simp) x

@[simp] theorem raiseIllegal_ramCell (s : State) (op : Nibble) (i off : Nat) : (s.raiseIllegal op).ramCell i off = s.ramCell i off := ramCell_congr (by simp) (by simp) i off

@[simp] theorem raiseIllegal_dbgValue (s : State) (op : Nibble) (i : Nat) : (s.raiseIllegal op).dbgValue i = s.dbgValue i := dbgValue_congr (by simp) (by simp) i

/-! ## takeSample -/

@[simp] theorem takeSample_a (s : State) : s.takeSample.a = s.a := rfl

@[simp] theorem takeSample_b (s : State) : s.takeSample.b = s.b := rfl

@[simp] theorem takeSample_c (s : State) : s.takeSample.c = s.c := rfl

@[simp] theorem takeSample_d (s : State) : s.takeSample.d = s.d := rfl

@[simp] theorem takeSample_iar (s : State) : s.takeSample.iar = s.iar := rfl

@[simp] theorem takeSample_addr (s : State) : s.takeSample.addr = s.addr := rfl

@[simp] theorem takeSample_run (s : State) : s.takeSample.run = s.run := rfl

@[simp] theorem takeSample_fault (s : State) : s.takeSample.fault = s.fault := rfl

@[simp] theorem takeSample_mem (s : State) : s.takeSample.mem = s.mem := rfl

@[simp] theorem takeSample_dbg (s : State) : s.takeSample.dbg = s.dbg := rfl

@[simp] theorem takeSample_trace (s : State) : s.takeSample.trace = s.trace := rfl

@[simp] theorem takeSample_config (s : State) : s.takeSample.config = s.config := rfl

@[simp] theorem takeSample_stopInput (s : State) : s.takeSample.stopInput = if s.config.hasStop then s.stopInput.tail else s.stopInput := rfl

@[simp] theorem takeSample_readReg (s : State) (r : Reg) : s.takeSample.readReg r = s.readReg r := by
  cases r <;> rfl

@[simp] theorem takeSample_memRead (s : State) (x : Addr) : s.takeSample.memRead x = s.memRead x := memRead_congr (by simp) (by simp) x

@[simp] theorem takeSample_ramCell (s : State) (i off : Nat) : s.takeSample.ramCell i off = s.ramCell i off := ramCell_congr (by simp) (by simp) i off

@[simp] theorem takeSample_dbgValue (s : State) (i : Nat) : s.takeSample.dbgValue i = s.dbgValue i := dbgValue_congr (by simp) (by simp) i

/-! ## stop -/

@[simp] theorem stop_a (s : State) : s.stop.a = s.a := rfl

@[simp] theorem stop_b (s : State) : s.stop.b = s.b := rfl

@[simp] theorem stop_c (s : State) : s.stop.c = s.c := rfl

@[simp] theorem stop_d (s : State) : s.stop.d = s.d := rfl

@[simp] theorem stop_iar (s : State) : s.stop.iar = s.iar := rfl

@[simp] theorem stop_addr (s : State) : s.stop.addr = s.addr := rfl

@[simp] theorem stop_run (s : State) : s.stop.run = .stopped := rfl

@[simp] theorem stop_fault (s : State) : s.stop.fault = s.fault := rfl

@[simp] theorem stop_mem (s : State) : s.stop.mem = s.mem := rfl

@[simp] theorem stop_dbg (s : State) : s.stop.dbg = s.dbg := rfl

@[simp] theorem stop_trace (s : State) : s.stop.trace = s.trace := rfl

@[simp] theorem stop_config (s : State) : s.stop.config = s.config := rfl

@[simp] theorem stop_stopInput (s : State) : s.stop.stopInput = if s.config.hasStop then s.stopInput.tail else s.stopInput := rfl

@[simp] theorem stop_readReg (s : State) (r : Reg) : s.stop.readReg r = s.readReg r := by
  cases r <;> rfl

@[simp] theorem stop_memRead (s : State) (x : Addr) : s.stop.memRead x = s.memRead x := memRead_congr (by simp) (by simp) x

@[simp] theorem stop_ramCell (s : State) (i off : Nat) : s.stop.ramCell i off = s.ramCell i off := ramCell_congr (by simp) (by simp) i off

@[simp] theorem stop_dbgValue (s : State) (i : Nat) : s.stop.dbgValue i = s.dbgValue i := dbgValue_congr (by simp) (by simp) i

end Sys2Proof.Machine
end

