-- ==== Sys2Proof/Laws/Ops.lean ====
section
/-!
SUPPORT. One lemma for each shared operation that says everything it can do: `MemRead`, `MemWrite`, `Fetch()`, the operand fetches.
-/

namespace Sys2Proof.Machine

/-! ## MemRead -/

theorem memRead_unmapped {s : State} {x : Addr} (h : resolve s.config.map x.toNat = none) : s.memRead x = some 0 := by
  simp only [State.memRead, h]

theorem memRead_rom {s : State} {x : Addr} {h : Hit} {buffer : List Byte} (hr : resolve s.config.map x.toNat = some h)
    (ht : h.mapping.target = .rom buffer) : s.memRead x = romRead buffer h.offset := by
  simp only [State.memRead, hr, ht]

theorem memRead_ram {s : State} {x : Addr} {h : Hit} {init : List Nibble} (hr : resolve s.config.map x.toNat = some h)
    (ht : h.mapping.target = .ram init) : s.memRead x = Memory.get (ramUnlisted s.config.map) s.mem x.toNat := by
  simp only [State.memRead, hr, ht]

theorem memRead_port {s : State} {x : Addr} {h : Hit} (hr : resolve s.config.map x.toNat = some h)
    (ht : h.mapping.target = .debugOutput) : s.memRead x = some 0 := by
  simp only [State.memRead, hr, ht]

/-- In a well-formed configuration every read answers. -/
theorem memRead_answers {s : State} (hc : s.config.wellFormed = true) (x : Addr) : ∃ v, s.memRead x = some v := by
  cases hr : resolve s.config.map x.toNat with
  | none => exact ⟨0, memRead_unmapped hr⟩
  | some h =>
    cases ht : h.mapping.target with
    | rom buffer => exact ⟨_, (memRead_rom hr ht).trans (romRead_of_lt (rom_in_buffer hc hr ht))⟩
    | ram init =>
      rw [memRead_ram hr ht]
      refine Option.isSome_iff_exists.mp ?_
      rw [get_isSome, ramUnlisted_ram hr ht, List.getElem?_eq_getElem (ram_in_cells hc hr ht)]
      rfl
    | debugOutput => exact ⟨0, memRead_port hr ht⟩

/-! ## MemWrite -/

/-- Everything a write can do: nothing, a rejection record, one RAM cell, or one DebugOutput value with its record. -/
theorem memWrite_cases {s t : State} {x : Addr} {v : Nibble} (hw : s.memWrite x v = some t) :
    (resolve s.config.map x.toNat = none ∧ t = s) ∨
    ∃ h, resolve s.config.map x.toNat = some h ∧
      ((∃ buffer, h.mapping.target = .rom buffer ∧ t = s.emit (.romWriteRejected h.offset)) ∨
       (∃ init, h.mapping.target = .ram init ∧ h.offset < init.length ∧ t = s.writeRam x v) ∨
       (h.mapping.target = .debugOutput ∧ t = s.writePort h.index v)) := by
  unfold State.memWrite at hw
  cases hr : resolve s.config.map x.toNat with
  | none =>
    rw [hr] at hw
    exact .inl ⟨rfl, by simpa using hw.symm⟩
  | some h =>
    refine .inr ⟨h, rfl, ?_⟩
    rw [hr] at hw
    cases ht : h.mapping.target with
    | rom buffer =>
      simp only [ht] at hw
      exact .inl ⟨buffer, rfl, by simpa using hw.symm⟩
    | ram init =>
      simp only [ht] at hw
      split at hw
      · rename_i hlt
        exact .inr (.inl ⟨init, rfl, hlt, by simpa using hw.symm⟩)
      · simp at hw
    | debugOutput =>
      simp only [ht] at hw
      exact .inr (.inr ⟨rfl, by simpa using hw.symm⟩)

theorem memWrite_unmapped {s : State} {x : Addr} (h : resolve s.config.map x.toNat = none) (v : Nibble) :
    s.memWrite x v = some s := by
  simp only [State.memWrite, h]

theorem memWrite_rom {s : State} {x : Addr} {h : Hit} {buffer : List Byte} (hr : resolve s.config.map x.toNat = some h)
    (ht : h.mapping.target = .rom buffer) (v : Nibble) : s.memWrite x v = some (s.emit (.romWriteRejected h.offset)) := by
  simp only [State.memWrite, hr, ht]

theorem memWrite_ram {s : State} {x : Addr} {h : Hit} {init : List Nibble} (hr : resolve s.config.map x.toNat = some h)
    (ht : h.mapping.target = .ram init) (hl : h.offset < init.length) (v : Nibble) :
    s.memWrite x v = some (s.writeRam x v) := by
  simp only [State.memWrite, hr, ht, if_pos hl]

theorem memWrite_port {s : State} {x : Addr} {h : Hit} (hr : resolve s.config.map x.toNat = some h)
    (ht : h.mapping.target = .debugOutput) (v : Nibble) : s.memWrite x v = some (s.writePort h.index v) := by
  simp only [State.memWrite, hr, ht]

/-- In a well-formed configuration every write answers. -/
theorem memWrite_answers {s : State} (hc : s.config.wellFormed = true) (x : Addr) (v : Nibble) :
    ∃ t, s.memWrite x v = some t := by
  cases hr : resolve s.config.map x.toNat with
  | none => exact ⟨_, memWrite_unmapped hr v⟩
  | some h =>
    cases ht : h.mapping.target with
    | rom buffer => exact ⟨_, memWrite_rom hr ht v⟩
    | ram init => exact ⟨_, memWrite_ram hr ht (ram_in_cells hc hr ht) v⟩
    | debugOutput => exact ⟨_, memWrite_port hr ht v⟩

/-! ## What a write leaves alone -/

/-- Every address but the one written reads as before. -/
theorem writeRam_memRead_other (s : State) {x y : Addr} (v : Nibble) (h : y ≠ x) :
    (s.writeRam x v).memRead y = s.memRead y := by
  have hk : y.toNat ≠ x.toNat := fun e => h (BitVec.eq_of_toNat_eq e)
  simp only [State.memRead, writeRam_config, writeRam_mem, get_set_other _ _ _ hk]

/-- The address written reads as the value written, where it resolves to a RAM cell. -/
theorem writeRam_memRead_same {s : State} {x : Addr} {h : Hit} {init : List Nibble} (hr : resolve s.config.map x.toNat = some h)
    (ht : h.mapping.target = .ram init) (hl : h.offset < init.length) (v : Nibble) :
    (s.writeRam x v).memRead x = some v := by
  rw [memRead_ram (s := s.writeRam x v) hr ht]
  exact get_set_same ((ramUnlisted_ram hr ht).trans (List.getElem?_eq_getElem hl)) s.mem v

/-- Every DebugOutput value but the one written is unchanged. -/
theorem writePort_dbgValue_other (s : State) {i j : Nat} (v : Nibble) (h : j ≠ i) :
    (s.writePort i v).dbgValue j = s.dbgValue j := by
  simp only [State.dbgValue, writePort_config, writePort_dbg, get_set_other _ _ _ h]

/-- The DebugOutput value written is the value written. -/
theorem writePort_dbgValue_same {s : State} {i : Nat} {m : Mapping} (hm : s.config.map[i]? = some m)
    (ht : m.target = .debugOutput) (v : Nibble) : (s.writePort i v).dbgValue i = some v :=
  get_set_same (portUnlisted_port hm ht) s.dbg v

/-- Every memory operation of the machine keeps the canonical form of the RAM cells. -/
theorem memWrite_keeps_ram_wf {s t : State} {x : Addr} {v : Nibble} (h : Memory.wf (ramUnlisted s.config.map) s.mem = true)
    (hw : s.memWrite x v = some t) : Memory.wf (ramUnlisted t.config.map) t.mem = true := by
  rcases memWrite_cases hw with ⟨_, rfl⟩ | ⟨hit, _, ⟨_, _, rfl⟩ | ⟨_, _, _, rfl⟩ | ⟨_, rfl⟩⟩
  · exact h
  · exact h
  · exact set_wf h _ _
  · exact h

/-- Every memory operation of the machine keeps the canonical form of the DebugOutput values. -/
theorem memWrite_keeps_port_wf {s t : State} {x : Addr} {v : Nibble} (h : Memory.wf (portUnlisted s.config.map) s.dbg = true)
    (hw : s.memWrite x v = some t) : Memory.wf (portUnlisted t.config.map) t.dbg = true := by
  rcases memWrite_cases hw with ⟨_, rfl⟩ | ⟨hit, _, ⟨_, _, rfl⟩ | ⟨_, _, _, rfl⟩ | ⟨_, rfl⟩⟩
  · exact h
  · exact h
  · exact h
  · exact set_wf h _ _

/-! ## Fetching -/

/-- What `Fetch()` answers. -/
theorem fetch_some {s : State} {n : Nibble} (h : s.memRead s.iar = some n) : s.fetch = some (n, s.setIar (s.iar + 1)) := by
  simp only [State.fetch, h]

/-- The fetches of a whole instruction change nothing but `IAR`. -/
theorem fetchPlan_setsIar {p : Plan} {s t : State} {i : Instr} (h : fetchPlan p s = some (i, t)) : ∃ x, t = s.setIar x := by
  induction p generalizing s with
  | done j =>
    simp only [fetchPlan, Option.some.injEq, Prod.mk.injEq] at h
    exact ⟨s.iar, h.2.symm⟩
  | need next ih =>
    simp only [fetchPlan, State.fetch] at h
    cases hm : s.memRead s.iar with
    | none => simp [hm] at h
    | some n =>
      simp only [hm] at h
      obtain ⟨x, rfl⟩ := ih n h
      exact ⟨x, rfl⟩

/-- The fetches of a whole instruction change nothing but `IAR`. -/
theorem fetchInstr_setsIar {s t : State} {i : Instr} (h : fetchInstr s = some (i, t)) : ∃ x, t = s.setIar x :=
  fetchPlan_setsIar h

/-- In a well-formed configuration every fetch of a whole instruction answers. -/
theorem fetchPlan_answers {s : State} (hc : s.config.wellFormed = true) (p : Plan) : ∃ i t, fetchPlan p s = some (i, t) := by
  induction p generalizing s with
  | done i => exact ⟨i, s, rfl⟩
  | need next ih =>
    obtain ⟨n, hn⟩ := memRead_answers hc s.iar
    simp only [fetchPlan, fetch_some hn]
    exact ih n hc

/-- In a well-formed configuration every fetch of a whole instruction answers. -/
theorem fetchInstr_answers {s : State} (hc : s.config.wellFormed = true) : ∃ i t, fetchInstr s = some (i, t) :=
  fetchPlan_answers hc (.need plan)

end Sys2Proof.Machine
end

