-- ==== Sys2Proof/Laws/Frames.lean ====
section
/-!
SUPPORT. The frames of the updates, the fields of the state after the fetches, and what the writes leave of the RAM cells.
-/

namespace Sys2Proof.Machine

/-! ## Frames -/

theorem keepsStorage_of_fields {s t : State} (hc : t.config = s.config) (hm : t.mem = s.mem) (hd : t.dbg = s.dbg)
    (ht : t.trace = s.trace) : KeepsStorage s t :=
  ⟨memRead_congr hc hm, ramCell_congr hc hm, dbgValue_congr hc hd, ht⟩

theorem keepsAllBut_writeReg (s : State) (r : Reg) (v : Nibble) : KeepsAllBut [r] s (s.writeReg r v) := by
  refine ⟨⟨fun q hq => readReg_writeReg_other s v (by simpa using hq), by simp, by simp⟩,
    ⟨by simp, by simp, by simp, by simp⟩, keepsStorage_of_fields ?_ ?_ ?_ ?_⟩ <;> simp

theorem keepsAllButIar_setIar (s : State) (x : Addr) : KeepsAllButIar s (s.setIar x) :=
  ⟨fun _ _ => by simp, rfl, ⟨rfl, rfl, rfl, rfl⟩, keepsStorage_of_fields rfl rfl rfl rfl⟩

theorem keepsAllButAddr_setAddr (s : State) (x : Addr) : KeepsAllButAddr s (s.setAddr x) :=
  ⟨fun _ _ => by simp, rfl, ⟨rfl, rfl, rfl, rfl⟩, keepsStorage_of_fields rfl rfl rfl rfl⟩

theorem keepsAllBut_refl (s : State) : KeepsAllBut [] s s :=
  ⟨⟨fun _ _ => rfl, rfl, rfl⟩, ⟨rfl, rfl, rfl, rfl⟩, keepsStorage_of_fields rfl rfl rfl rfl⟩

/-! ## The state after the fetches -/

@[simp] theorem fetched_a (s : State) (i : Instr) : (s.fetched i).a = s.a := rfl

@[simp] theorem fetched_b (s : State) (i : Instr) : (s.fetched i).b = s.b := rfl

@[simp] theorem fetched_c (s : State) (i : Instr) : (s.fetched i).c = s.c := rfl

@[simp] theorem fetched_d (s : State) (i : Instr) : (s.fetched i).d = s.d := rfl

@[simp] theorem fetched_iar (s : State) (i : Instr) : (s.fetched i).iar = s.iar + BitVec.ofNat 12 i.length := rfl

@[simp] theorem fetched_addr (s : State) (i : Instr) : (s.fetched i).addr = s.addr := rfl

@[simp] theorem fetched_run (s : State) (i : Instr) : (s.fetched i).run = s.run := rfl

@[simp] theorem fetched_fault (s : State) (i : Instr) : (s.fetched i).fault = s.fault := rfl

@[simp] theorem fetched_mem (s : State) (i : Instr) : (s.fetched i).mem = s.mem := rfl

@[simp] theorem fetched_dbg (s : State) (i : Instr) : (s.fetched i).dbg = s.dbg := rfl

@[simp] theorem fetched_trace (s : State) (i : Instr) : (s.fetched i).trace = s.trace := rfl

@[simp] theorem fetched_config (s : State) (i : Instr) : (s.fetched i).config = s.config := rfl

@[simp] theorem fetched_readReg (s : State) (i : Instr) (r : Reg) : (s.fetched i).readReg r = s.readReg r := by
  cases r <;> rfl

@[simp] theorem fetched_memRead (s : State) (i : Instr) (x : Addr) : (s.fetched i).memRead x = s.memRead x :=
  memRead_congr rfl rfl x

/-- Where the nibbles of a list stand at `IAR` and a plan reads an instruction from them, the operand fetches give that instruction and
leave `IAR` past the nibbles the plan took. -/
theorem fetchPlan_of_decodePlan {p : Plan} {s : State} {ns rest : List Nibble} {i : Instr} (hn : s.NibblesAtIar ns)
    (h : decodePlan p ns = .ok i rest) :
    ∃ k, ns.length = k + rest.length ∧ fetchPlan p s = some (i, s.setIar (s.iar + BitVec.ofNat 12 k)) := by
  have shift : ∀ k, s.iar + 1 + BitVec.ofNat 12 k = s.iar + BitVec.ofNat 12 (k + 1) := fun k => by
    rw [Nat.add_comm k 1, BitVec.ofNat_add, ← BitVec.add_assoc]
    rfl
  induction p generalizing s ns with
  | done j =>
    simp only [decodePlan, Decoded.ok.injEq] at h
    obtain ⟨rfl, rfl⟩ := h
    exact ⟨0, by simp, by simp [fetchPlan, State.setIar]⟩
  | need next ih =>
    cases ns with
    | nil => simp [decodePlan] at h
    | cons n ns =>
      simp only [decodePlan] at h
      have h0 : s.memRead s.iar = some n := by
        have h0 := hn 0 (Nat.succ_pos _)
        rwa [show s.iar + BitVec.ofNat 12 0 = s.iar by simp] at h0
      have hn' : (s.setIar (s.iar + 1)).NibblesAtIar ns := fun k hk => by
        rw [setIar_memRead, setIar_iar, shift]
        exact hn (k + 1) (Nat.succ_lt_succ hk)
      obtain ⟨k, hk, hf⟩ := ih n hn' h fun k => by
        rw [setIar_iar, Nat.add_comm k 1, BitVec.ofNat_add, ← BitVec.add_assoc]
        rfl
      refine ⟨k + 1, by simp; omega, ?_⟩
      simp only [fetchPlan, fetch_some h0, hf, setIar_iar, shift]
      rfl

/-! ## RAM cells -/

/-- The RAM cell an address resolves to is what memory holds at that address. -/
theorem ramCell_at {s : State} {x : Nat} {h : Hit} {init : List Nibble} (hr : resolve s.config.map x = some h)
    (ht : h.mapping.target = .ram init) :
    s.ramCell h.index h.offset = Memory.get (ramUnlisted s.config.map) s.mem x := by
  obtain ⟨h1, h2, h3, h4⟩ := resolve_some hr
  have hx : h.mapping.base + h.offset = x := by omega
  simp only [State.ramCell, h1, ht, hx, hr, if_true]

/-- A RAM write leaves every cell of every RAM mapping alone but the one its address resolves to. -/
theorem ramCell_writeRam_other {s : State} {x : Addr} {h : Hit} (hr : resolve s.config.map x.toNat = some h) (v : Nibble)
    {i off : Nat} (hne : (i, off) ≠ (h.index, h.offset)) : (s.writeRam x v).ramCell i off = s.ramCell i off := by
  simp only [State.ramCell, writeRam_config, writeRam_mem]
  cases hm : s.config.map[i]? with
  | none => rfl
  | some m =>
    simp only
    cases m.target with
    | rom _ => rfl
    | debugOutput => rfl
    | ram init =>
      simp only
      cases hr' : resolve s.config.map (m.base + off) with
      | none => rfl
      | some h' =>
        simp only
        by_cases hi : h'.index = i
        · rw [if_pos hi, if_pos hi]
          refine get_set_other _ _ _ fun he => hne ?_
          obtain ⟨hm', _, _, ho⟩ := resolve_some hr'
          rw [hi, hm] at hm'
          rw [he, hr] at hr'
          cases hr'
          cases hm'
          rw [hi, ho]
          congr 1
          omega
        · rw [if_neg hi, if_neg hi]

end Sys2Proof.Machine
end

