-- ==== Sys2Proof/Laws/PerInstr.lean ====
section
/-!
SUPPORT. Statements made for each instruction as syntax: the length of its encoding is the length rule R92 of 30_encoding.md gives its
opcode, and its first nibble is that opcode.
-/

namespace Sys2Proof.Laws.EncodedLength

/-- The encoding of `i` is as long as the opcode map says, starts with its opcode, and has the opcode's number of operands. -/
def Statement (i : Instr) : Prop :=
  (encode i).length = i.length ∧ (encode i).head? = some i.opcode ∧ i.length = 1 + operandCount i.opcode

theorem ldi (n : Nibble) : Statement (.ldi n) := ⟨rfl, rfl, rfl⟩

theorem lod : Statement .lod := ⟨rfl, rfl, rfl⟩

theorem str : Statement .str := ⟨rfl, rfl, rfl⟩

theorem sar : Statement .sar := ⟨rfl, rfl, rfl⟩

theorem sap : Statement .sap := ⟨rfl, rfl, rfl⟩

theorem mov (p q : Reg) : Statement (.mov p q) := ⟨rfl, rfl, rfl⟩

theorem jmp (h m l : Nibble) : Statement (.jmp h m l) := ⟨rfl, rfl, rfl⟩

theorem rjp : Statement .rjp := ⟨rfl, rfl, rfl⟩

theorem jz (h m l : Nibble) : Statement (.jz h m l) := ⟨rfl, rfl, rfl⟩

theorem nand (p q : Reg) : Statement (.nand p q) := ⟨rfl, rfl, rfl⟩

theorem illegal0 : Statement .illegal0 := ⟨rfl, rfl, rfl⟩

theorem illegal7 : Statement .illegal7 := ⟨rfl, rfl, rfl⟩

theorem illegalB : Statement .illegalB := ⟨rfl, rfl, rfl⟩

theorem illegalC : Statement .illegalC := ⟨rfl, rfl, rfl⟩

theorem illegalE : Statement .illegalE := ⟨rfl, rfl, rfl⟩

theorem illegalF : Statement .illegalF := ⟨rfl, rfl, rfl⟩

end Sys2Proof.Laws.EncodedLength
end

