-- ==== Sys2Proof/Laws/Placement.lean ====
section
/-!
SUPPORT. Nibbles placed at `IAR` are the nibbles the next fetches read, in every state; and the memory of the reset state is in
canonical form.
-/

namespace Sys2Proof.Machine

theorem highNibble_append (n : Nibble) : highNibble (n ++ (0 : Nibble)) = n := by
  revert n
  decide

/-- Each address of an overlay resolves to its own one-nibble ROM, also across the end of the address space. -/
theorem resolveFrom_overlay (map : List Mapping) {ns : List Nibble} {k : Nat} (hk : k < ns.length) (hl : ns.length ≤ 4096)
    (start : Addr) (i : Nat) :
    resolveFrom i (overlayFrom start ns ++ map) (start + BitVec.ofNat 12 k).toNat =
      some { index := i + k
             mapping := { base := (start + BitVec.ofNat 12 k).toNat, length := 1, target := .rom [ns[k] ++ (0 : Nibble)] }
             offset := 0 } := by
  induction ns generalizing start i k with
  | nil => simp at hk
  | cons n ns ih =>
    simp only [List.length_cons] at hk hl
    cases k with
    | zero => simp [overlayFrom, resolveFrom, contains]
    | succ k =>
      have hx : (start + BitVec.ofNat 12 (k + 1)).toNat = (start.toNat + (k + 1)) % 4096 := by simp
      have hs := start.isLt
      have hne : contains { base := start.toNat, length := 1, target := .rom [n ++ (0 : Nibble)] }
          (start + BitVec.ofNat 12 (k + 1)).toNat = false := by
        rw [Bool.eq_false_iff, ne_eq, contains_iff, hx]
        simp only
        omega
      have shift : start + BitVec.ofNat 12 (k + 1) = start + 1 + BitVec.ofNat 12 k := by
        rw [Nat.add_comm k 1, BitVec.ofNat_add, ← BitVec.add_assoc]
        rfl
      simp only [overlayFrom, List.cons_append, resolveFrom, hne, Bool.false_eq_true, if_false, List.getElem_cons_succ]
      rw [shift, ih (by omega) (by omega) (start + 1) (i + 1), Nat.add_assoc, Nat.add_comm 1 k]

/-- The nibbles placed at `IAR` are what the next fetches read. -/
theorem placeAtIar_nibblesAtIar (s : State) {ns : List Nibble} (hl : ns.length ≤ 4096) : (s.placeAtIar ns).NibblesAtIar ns := by
  intro k hk
  have hr := resolveFrom_overlay s.config.map hk hl s.iar 0
  refine (memRead_rom (s := s.placeAtIar ns) (x := s.iar + BitVec.ofNat 12 k) hr rfl).trans ?_
  simpa [romRead] using highNibble_append ns[k]

/-- The reset state's memory is in canonical form, in every configuration. -/
theorem resetWith_memory_wf (c : Configuration) :
    Memory.wf (ramUnlisted c.map) (State.resetWith c).mem = true ∧ Memory.wf (portUnlisted c.map) (State.resetWith c).dbg = true :=
  ⟨wf_nil _, wf_nil _⟩

end Sys2Proof.Machine
end

