-- ==== Sys2Proof/Laws/Step.lean ====
section
/-!
SUPPORT. What an instruction and a step can do, said once.
-/

namespace Sys2Proof.Machine

/-- Everything an instruction can do: write one general register, set `IAR`, set `ADDR`, do one memory write, or raise the
exception. -/
theorem exec_cases {i : Instr} {s t : State} (h : exec i s = .next t) :
    (∃ r v, t = s.writeReg r v) ∨ (∃ x, t = s.setIar x) ∨ ((i = .sar ∨ i = .sap) ∧ ∃ x, t = s.setAddr x) ∨
      (i = .str ∧ s.memWrite s.addr s.a = some t) ∨ (i.opcode ∈ illegalOpcodes ∧ t = s.raiseIllegal i.opcode) := by
  cases i with
  | ldi n => exact .inl ⟨.a, n, by simpa [exec, execLdi] using h.symm⟩
  | lod =>
    simp only [exec, execLod] at h
    split at h
    · rename_i v _
      exact .inl ⟨.a, v, by simpa using h.symm⟩
    · simp at h
  | str =>
    simp only [exec, execStr] at h
    split at h
    · rename_i u hu
      refine .inr (.inr (.inr (.inl ⟨rfl, ?_⟩)))
      rw [hu]
      simpa using h
    · simp at h
  | sar => exact .inr (.inr (.inl ⟨.inl rfl, _, by simpa [exec, execSar] using h.symm⟩))
  | sap => exact .inr (.inr (.inl ⟨.inr rfl, _, by simpa [exec, execSap] using h.symm⟩))
  | mov p q => exact .inl ⟨q, _, by simpa [exec, execMov] using h.symm⟩
  | jmp x m l => exact .inr (.inl ⟨_, by simpa [exec, execJmp] using h.symm⟩)
  | rjp => exact .inr (.inl ⟨_, by simpa [exec, execRjp] using h.symm⟩)
  | jz x m l =>
    refine .inr (.inl ?_)
    simp only [exec, execJz, Host.Outcome.next.injEq] at h
    split at h
    · exact ⟨_, h.symm⟩
    · exact ⟨s.iar, h.symm⟩
  | nand p q => exact .inl ⟨p, _, by simpa [exec, execNand] using h.symm⟩
  | illegal0 => exact .inr (.inr (.inr (.inr ⟨by decide, by simpa [exec, execIllegal0, Instr.opcode] using h.symm⟩)))
  | illegal7 => exact .inr (.inr (.inr (.inr ⟨by decide, by simpa [exec, execIllegal7, Instr.opcode] using h.symm⟩)))
  | illegalB => exact .inr (.inr (.inr (.inr ⟨by decide, by simpa [exec, execIllegalB, Instr.opcode] using h.symm⟩)))
  | illegalC => exact .inr (.inr (.inr (.inr ⟨by decide, by simpa [exec, execIllegalC, Instr.opcode] using h.symm⟩)))
  | illegalE => exact .inr (.inr (.inr (.inr ⟨by decide, by simpa [exec, execIllegalE, Instr.opcode] using h.symm⟩)))
  | illegalF => exact .inr (.inr (.inr (.inr ⟨by decide, by simpa [exec, execIllegalF, Instr.opcode] using h.symm⟩)))

/-- An instruction changes neither the configuration nor the stop input. -/
theorem exec_config_stopInput {i : Instr} {s t : State} (h : exec i s = .next t) :
    t.config = s.config ∧ t.stopInput = s.stopInput := by
  rcases exec_cases h with ⟨r, v, rfl⟩ | ⟨x, rfl⟩ | ⟨_, x, rfl⟩ | ⟨_, hw⟩ | ⟨_, rfl⟩
  · simp
  · simp
  · simp
  · rcases memWrite_cases hw with ⟨_, rfl⟩ | ⟨_, _, ⟨_, _, rfl⟩ | ⟨_, _, _, rfl⟩ | ⟨_, rfl⟩⟩ <;> simp
  · simp

/-- In a well-formed configuration every instruction answers a next state. -/
theorem exec_answers {s : State} (hc : s.config.wellFormed = true) (i : Instr) : ∃ t, exec i s = .next t := by
  cases i with
  | lod =>
    obtain ⟨v, hv⟩ := memRead_answers hc s.addr
    exact ⟨s.writeReg .a v, by simp only [exec, execLod, hv]⟩
  | str =>
    obtain ⟨t, ht⟩ := memWrite_answers hc s.addr s.a
    exact ⟨t, by simp only [exec, execStr, ht]⟩
  | _ => exact ⟨_, rfl⟩

/-- Everything a step can do: nothing in `halted` and `stopped`, the transition to `stopped`, or one instruction after its fetches. -/
theorem step_cases {s t : State} (h : step s = .next t) :
    s.config.wellFormed = true ∧
      ((s.run ≠ .running ∧ t = s) ∨
       (s.run = .running ∧ s.stopRequested = true ∧ t = s.stop) ∨
       (s.run = .running ∧ s.stopRequested = false ∧
         ∃ i x, fetchInstr s.takeSample = some (i, s.takeSample.setIar x) ∧ exec i (s.takeSample.setIar x) = .next t)) := by
  unfold step at h
  split at h
  · simp at h
  · rename_i hc
    refine ⟨hc, ?_⟩
    split at h
    · rename_i hr
      exact .inl ⟨by simp [hr], by simpa using h.symm⟩
    · rename_i hr
      exact .inl ⟨by simp [hr], by simpa using h.symm⟩
    · rename_i hr
      split at h
      · rename_i hs
        exact .inr (.inl ⟨hr, hs, by simpa using h.symm⟩)
      · rename_i hs
        split at h
        · rename_i i u hf
          obtain ⟨x, rfl⟩ := fetchInstr_setsIar hf
          exact .inr (.inr ⟨hr, hs, i, x, hf, h⟩)
        · simp at h

/-- The step of a machine that takes a cycle: the instruction fetched, run on the state after its fetches. -/
theorem step_of_fetch {s t : State} {i : Instr} (h : s.TakesCycle) (hf : fetchInstr s.takeSample = some (i, t)) :
    step s = exec i t := by
  simp only [step, h.1, h.2.1, h.2.2, hf]

end Sys2Proof.Machine
end

