-- ==== Sys2Proof/Machine/Listing.lean ====
section
/-!
DEFINITION. The listing syntax (30_encoding.md rule R101, decision D13) and the suggested text of a diagnostic record
(60_exceptions.md rules R170, R171, decision D12: upper case, no prefix, no padding). Presentation only: no step reads it.
-/

namespace Sys2Proof.Machine

/-- A nibble as one upper-case hexadecimal digit. -/
def hexDigit (n : Nibble) : String :=
  String.singleton ((if n.toNat < 10 then '0'.toNat + n.toNat else 'A'.toNat + (n.toNat - 10)) |> Char.ofNat)

/-- The low `k` hexadecimal digits of a number, without leading zeros. -/
def hexDigits : Nat → Nat → String
  | 0, _ => ""
  | k + 1, n => (if n / 16 = 0 then "" else hexDigits k (n / 16)) ++ hexDigit (BitVec.ofNat 4 n)

/-- A register's name (rule R101). -/
def regName : Reg → String
  | .a => "A"
  | .b => "B"
  | .c => "C"
  | .d => "D"

/-- An instruction as rule R101 writes it: operands in encoding order; an illegal opcode as a literal nibble. -/
def listing : Instr → String
  | .ldi n => "LDI " ++ hexDigit n
  | .lod => "LOD"
  | .str => "STR"
  | .sar => "SAR"
  | .sap => "SAP"
  | .mov p q => "MOV " ++ regName p ++ ", " ++ regName q
  | .jmp h m l => "JMP " ++ hexDigit h ++ hexDigit m ++ hexDigit l
  | .rjp => "RJP"
  | .jz h m l => "JZ " ++ hexDigit h ++ hexDigit m ++ hexDigit l
  | .nand p q => "NAND " ++ regName p ++ ", " ++ regName q
  | .illegal0 => ".nibble 0"
  | .illegal7 => ".nibble 7"
  | .illegalB => ".nibble B"
  | .illegalC => ".nibble C"
  | .illegalE => ".nibble E"
  | .illegalF => ".nibble F"

/-- A record as a line of the reference's diagnostic log (rule R170). -/
def recordText : Record → String
  | .dbgWrite v => "wrote " ++ hexDigit v ++ " to DBGOUT"
  | .romWriteRejected off => "attempt to write to ROM at offset " ++ hexDigits 3 off
  | .illegalInstruction op a => "illegal instruction " ++ hexDigit op ++ " at " ++ hexDigits 3 a.toNat

end Sys2Proof.Machine
end

