-- ==== Sys2Proof/Tests/Slice0.lean ====
section
/-!
SUPPORT. The model's own tests. Expected results come from the spec's worked examples (95_test_vectors.md S1 to S9) and its derived
vectors (V-...), or are worked out by hand from the rule named. The second half holds a witness for the hypotheses of each
statement.
-/

namespace Sys2Proof.Tests

open Sys2Proof.Machine

/-! ## Helpers -/

/-- A ROM image written as numbers. -/
def image (bytes : List Nat) : List Byte := bytes.map (BitVec.ofNat 8)

/-- The reset state in the default configuration with a ROM image. -/
def rom (bytes : List Nat) : State := State.resetWith (defaultConfiguration (image bytes))

/-- The reset state in configuration (R) of 95_test_vectors.md section 2.3: the default configuration and 16 nibbles of RAM at 200. -/
def withRam (bytes : List Nat) : State :=
  State.resetWith
    { map := defaultMap (image bytes) ++ [{ base := 0x200, length := 16, target := .ram (ramInitDefault 16) }], hasStop := false }

/-- The reset state with a stop input. -/
def withStop (bytes : List Nat) (samples : List Bool) : State :=
  { State.resetWith { map := defaultMap (image bytes), hasStop := true } with stopInput := samples }

/-- The overlay of 95_test_vectors.md section 2.8: a RAM registered before a ROM of 64 nibbles. -/
def overlay : State :=
  State.resetWith
    { map := [{ base := 0x010, length := 8, target := .ram (List.replicate 8 1) },
              { base := 0x000, length := 64, target := .rom ((List.replicate 16 (image [0xAB, 0xCD])).flatten) },
              { base := 0x100, length := 1, target := .debugOutput }],
      hasStop := false }

/-- RAM at the last and the first address: the nibbles `1 9` across the wrap. -/
def wrapped : Configuration :=
  { map := [{ base := 0xFFF, length := 1, target := .ram [1] }, { base := 0, length := 1, target := .ram [9] }], hasStop := false }

/-- A ROM registered before the port that contains the port's address (the order of R66, the shadowing of R67, in small). -/
def shadowing : State :=
  State.resetWith
    { map := [{ base := 0x0FF, length := 2, target := .rom [0x59] }, { base := 0x100, length := 1, target := .debugOutput }],
      hasStop := false }

/-- A check of the state after one step; false if there is none. -/
def after (s : State) (p : State → Bool) : Bool :=
  match step s with
  | .next t => p t
  | .fault _ => false
  | .refused _ => false

/-! ## Decoding: words written out from the spec's encodings -/

/-- Format I, `1 n` (R120); the operand may be an illegal opcode value (V-I10). -/
theorem test_decode_ldi : decode [0b0001, 0b0010] = .ok (.ldi 2) [] ∧ decode [0x1, 0x7] = .ok (.ldi 7) [] := by decide

/-- Format Z (R125 to R128, R141). -/
theorem test_decode_one_nibble :
    decode [0b0010] = .ok .lod [] ∧ decode [0b0011, 0x2] = .ok .str [0x2] ∧ decode [0b0100] = .ok .sar [] ∧
    decode [0b0101] = .ok .sap [] ∧ decode [0b1001] = .ok .rjp [] := by decide

/-- Format R: S5 and the corners of the sixteen-row table of R94. -/
theorem test_decode_mov :
    decode [0b0110, 0b1001] = .ok (.mov .c .b) [] ∧ decode [0x6, 0x0] = .ok (.mov .a .a) [] ∧
    decode [0x6, 0x3] = .ok (.mov .a .d) [] ∧ decode [0x6, 0xC] = .ok (.mov .d .a) [] := by decide

/-- Format R: R101 ("NAND A, C is D 2") and R94. -/
theorem test_decode_nand :
    decode [0b1101, 0b0010] = .ok (.nand .a .c) [] ∧ decode [0xD, 0x8] = .ok (.nand .c .a) [] := by decide

/-- Format J: the high limb first (R96, worked examples of R140 and R142). -/
theorem test_decode_jumps :
    decode [0b1000, 0x0, 0x2, 0xA] = .ok (.jmp 0x0 0x2 0xA) [] ∧ decode [0b1010, 0x0, 0x0, 0x5] = .ok (.jz 0x0 0x0 0x5) [] := by
  decide

/-- The six illegal opcode values (R98). -/
theorem test_decode_illegal :
    decode [0b0000] = .ok .illegal0 [] ∧ decode [0b0111] = .ok .illegal7 [] ∧ decode [0b1011] = .ok .illegalB [] ∧
    decode [0b1100] = .ok .illegalC [] ∧ decode [0b1110] = .ok .illegalE [] ∧ decode [0b1111] = .ok .illegalF [] := by decide

/-- The decoder's only rejections, by name (R93, R99). -/
theorem test_decode_rejects :
    decode [] = .reject .noOpcode ∧ decode [0x1] = .reject .operandMissing ∧ decode [0xA, 1, 2] = .reject .operandMissing := by
  decide

/-- Words of spec/opcode_table.json (R103): its "match" values, a row of one nibble also as a whole byte. -/
theorem test_table_words :
    decodeTableWord 8 0x10 = some (.ldi 0) ∧ decodeTableWord 4 0x2 = some .lod ∧ decodeTableWord 8 0x2 = some .lod ∧
    decodeTableWord 8 0x60 = some (.mov .a .a) ∧ decodeTableWord 16 0x8000 = some (.jmp 0 0 0) ∧
    decodeTableWord 16 0xA123 = some (.jz 1 2 3) ∧ decodeTableWord 8 0xD0 = some (.nand .a .a) ∧
    decodeTableWord 8 0x0 = some .illegal0 ∧ decodeTableWord 8 0xF = some .illegalF := by decide

/-- The encoder on the examples of R101. -/
theorem test_encode :
    encode (.mov .c .b) = [0x6, 0x9] ∧ encode (.nand .a .c) = [0xD, 0x2] ∧ encode (.jmp 0x1 0x2 0x3) = [0x8, 0x1, 0x2, 0x3] := by
  decide

/-! ## Well-formedness: one ill-formed term for each check of R65 -/

/-- R65 (a): past the end of the address space. -/
theorem test_refuses_mapping_past_end :
    Mapping.wellFormed { base := 0xFFF, length := 2, target := .debugOutput } = false ∧
    Mapping.wellFormed { base := 0x1000, length := 0, target := .rom [] } = false := by decide

/-- R65 (b): a ROM mapping longer than its buffer. -/
theorem test_refuses_short_rom : Mapping.wellFormed { base := 0, length := 3, target := .rom [0x12] } = false := by decide

/-- R65 (c): a RAM whose cells are not as many as the mapping is long. -/
theorem test_refuses_ram_length : Mapping.wellFormed { base := 0, length := 2, target := .ram [0] } = false := by decide

/-- R65 (d): a DebugOutput of length 0. -/
theorem test_refuses_empty_port : Mapping.wellFormed { base := 0, length := 0, target := .debugOutput } = false := by decide

/-- A step in an ill-formed configuration is refused (R65). -/
theorem test_step_refuses_ill_formed :
    step (State.resetWith { map := [{ base := 0, length := 3, target := .rom [0x12] }], hasStop := false }) =
      .refused .illFormedConfiguration := by rfl

/-- An access past a target's storage is a fault, by its name. -/
theorem test_beyond_target :
    execLod (State.resetWith { map := [{ base := 0, length := 3, target := .rom [] }], hasStop := false }) =
      .fault .beyondTarget := by rfl

/-! ## The cycle and each instruction -/

/-- S7: image `[0x12]`, one cycle. -/
theorem test_ldi : after (rom [0x12]) (fun t => t.a == 2 && t.iar == 0x002 && t.trace == [] && t.run == .running) = true := by
  decide

/-- V-LDI5: an instruction at an odd address straddles two bytes. -/
theorem test_ldi_odd : after { rom [0x00, 0x01, 0x50] with iar := 0x003 } (fun t => t.a == 5 && t.iar == 0x005) = true := by
  decide

/-- V-M1, V-M2: ROM nibbles at an odd and an even offset. -/
theorem test_lod :
    after { rom [0x27, 0x9C] with addr := 0x001 } (fun t => t.a == 7 && t.iar == 0x001) = true ∧
    after { rom [0x27, 0x9C] with addr := 0x002 } (fun t => t.a == 9) = true := by decide

/-- V-M4, V-M5: the port and an unmapped address read 0. -/
theorem test_lod_zero :
    after { rom [0x20] with addr := 0x100, a := 5, dbg := [(1, 7)] }
      (fun t => t.a == 0 && t.dbgValue 1 == some 7 && t.trace == []) = true ∧
    after { rom [0x20] with addr := 0x300, a := 5 } (fun t => t.a == 0 && t.trace == []) = true := by decide

/-- S9, V-M8: a store to the port and a store to ROM. -/
theorem test_str_port_and_rom :
    after { rom [0x32, 0x70] with addr := 0x100, a := 0xA } (fun t => t.dbgValue 1 == some 0xA && t.trace == [.dbgWrite 0xA]) = true ∧
    after { rom [0x30] with addr := 0x000, a := 5 }
      (fun t => t.memRead 0 == some 3 && t.trace == [.romWriteRejected 0] && t.iar == 0x001 && t.run == .running) = true := by
  decide

/-- V-M6, V-M10: a store to RAM and a store to an unmapped address. -/
theorem test_str_ram_and_unmapped :
    after { withRam [0x32] with addr := 0x203, a := 9 }
      (fun t => t.ramCell 2 3 == some 9 && t.memRead 0x203 == some 9 && t.memRead 0x202 == some 0 && t.trace == []) = true ∧
    after { rom [0x30] with addr := 0x300, a := 5 } (fun t => t == { rom [0x30] with addr := 0x300, a := 5, iar := 1 }) = true := by
  decide

/-- V-M11, V-M12. -/
theorem test_sar :
    after { rom [0x40] with addr := 0x100, a := 0xF, b := 3 } (fun t => t.addr == 0x1F3 && t.iar == 0x001) = true ∧
    after { rom [0x40] with addr := 0xFFF } (fun t => t.addr == 0xF00) = true := by decide

/-- V-M13, V-M14. -/
theorem test_sap :
    after { rom [0x50] with addr := 0x0F3, a := 1 } (fun t => t.addr == 0x1F3 && t.iar == 0x001) = true ∧
    after { rom [0x50] with addr := 0xFFF } (fun t => t.addr == 0x0FF) = true := by decide

/-- V-MOV1, V-MOV9, V-MOVC. -/
theorem test_mov :
    after { rom [0x61] with a := 1, b := 2, c := 4, d := 8 } (fun t => (t.a, t.b, t.c, t.d) == (1, 1, 4, 8)) = true ∧
    after { rom [0x69] with a := 1, b := 2, c := 4, d := 8 } (fun t => (t.a, t.b, t.c, t.d) == (1, 4, 4, 8)) = true ∧
    after { rom [0x6C] with a := 1, b := 2, c := 4, d := 8 } (fun t => (t.a, t.b, t.c, t.d) == (8, 2, 4, 8)) = true := by decide

/-- V-NAND3, V-NAND4, V-NANDB. -/
theorem test_nand :
    after { rom [0xD3] with a := 3, b := 5, c := 9, d := 0xE } (fun t => (t.a, t.b, t.c, t.d) == (0xD, 5, 9, 0xE)) = true ∧
    after { rom [0xD4] with a := 3, b := 5, c := 9, d := 0xE } (fun t => (t.a, t.b, t.c, t.d) == (3, 0xE, 9, 0xE)) = true ∧
    after { rom [0xDB] with a := 3, b := 5, c := 9, d := 0xE } (fun t => (t.a, t.b, t.c, t.d) == (3, 5, 7, 0xE)) = true := by decide

/-- V-NC1, V-NC4, V-NC5, V-NC8: value corners. -/
theorem test_nand_values : nandNibble 0 0 = 0xF ∧ nandNibble 0xF 0xF = 0 ∧ nandNibble 0xA 0xC = 7 ∧ nandNibble 0xF 6 = 9 := by
  decide

/-- V-J1, V-J2. -/
theorem test_jmp :
    after { rom (List.replicate 8 0 ++ [0x80, 0x2A]) with iar := 0x010 } (fun t => t.iar == 0x02A) = true ∧
    after (rom [0x8F, 0xFF]) (fun t => t.iar == 0xFFF) = true := by decide

/-- V-R2: high from D, mid from A, low from B. -/
theorem test_rjp : after { rom [0x90] with d := 0xF, a := 0xE, b := 0xD, c := 1 } (fun t => t.iar == 0xFED && t.c == 1) = true := by
  decide

/-- S6, V-Z3. -/
theorem test_jz :
    after (rom [0xA0, 0x05]) (fun t => t.iar == 0x005) = true ∧
    after { rom [0xA0, 0x05] with a := 8 } (fun t => t.iar == 0x004 && t.a == 8) = true := by decide

/-- S8, V-IB, V-IC, V-IE, V-IF: the fault record, the record, `halted`, and `IAR` past the opcode. -/
theorem test_illegal :
    after (rom [0x70])
      (fun t => t.run == .halted && t.fault == some { opcode := 7, address := 0 } && t.trace == [.illegalInstruction 7 0] &&
        t.iar == 1) = true ∧
    after (rom [0xB0]) (fun t => t.fault == some { opcode := 0xB, address := 0 }) = true ∧
    after (rom [0xC0]) (fun t => t.fault == some { opcode := 0xC, address := 0 }) = true ∧
    after (rom [0xE0]) (fun t => t.fault == some { opcode := 0xE, address := 0 }) = true ∧
    after (rom [0xF0]) (fun t => t.fault == some { opcode := 0xF, address := 0 }) = true := by decide

/-- V-I8: an empty image halts at once; R195. -/
theorem test_reset_halts :
    after State.reset (fun t => t.run == .halted && t.fault == some { opcode := 0, address := 0 } && t.iar == 1) = true := by decide

/-- V-I9: an illegal opcode fetched from 4095, here the only nibble of a RAM at FFF (decision D7). -/
theorem test_illegal_at_4095 :
    after { State.resetWith { map := [{ base := 0xFFF, length := 1, target := .ram [0xF] }], hasStop := false } with iar := 0xFFF }
      (fun t => t.fault == some { opcode := 0xF, address := 0xFFF } && t.iar == 0) = true := by decide

/-- V-LDIW in small: an operand fetched across the wrap. -/
theorem test_wrap :
    after { State.resetWith wrapped with iar := 0xFFF } (fun t => t.a == 9 && t.iar == 1) = true := by decide

/-- R178: a stop sampled before the fetch; `stopped` stays. -/
theorem test_stop :
    after (withStop [0x12] [true]) (fun t => t.run == .stopped && t.iar == 0 && t.a == 0 && t.trace == []) = true ∧
    after (withStop [0x12] [false, true]) (fun t => t.run == .running && t.a == 2 && t.stopInput == [true]) = true := by decide

/-- V-A1 to V-A7: resolution with a RAM registered before a ROM. -/
theorem test_resolution :
    overlay.memRead 0x00F = some 0xD ∧ overlay.memRead 0x010 = some 1 ∧ overlay.memRead 0x017 = some 1 ∧
    overlay.memRead 0x018 = some 0xA ∧ overlay.memRead 0x03F = some 0xD ∧ overlay.memRead 0x040 = some 0 := by decide

/-- V-M9 in small: a ROM registered first hides the port (R53, R67). -/
theorem test_shadowed_port :
    shadowing.memRead 0x100 = some 9 ∧ shadowing.memWrite 0x100 0xA = some (shadowing.emit (.romWriteRejected 1)) := by decide

/-- Memory keeps its canonical form: a write of the value an unlisted cell holds takes the entry off. -/
theorem test_memory_canonical :
    Memory.set (fun _ => some 0) (Memory.set (fun _ => some 0) [] 5 3) 2 7 = [(2, 7), (5, 3)] ∧
    Memory.set (fun _ => some 0) [(2, 7), (5, 3)] 2 0 = [(5, 3)] ∧ Memory.wf (fun _ => some 0) [(5, 3), (2, 7)] = false := by decide

/-- The next step runs the instruction of a table word, as the first after reset and across the wrap. -/
theorem test_withFetchWord :
    after (State.reset.withFetchWord 16 0x8000) (fun t => t.iar == 0 && t.run == .running) = true ∧
    after (State.reset.withFetchWord 8 0x3) (fun t => t.trace == [.romWriteRejected 0] && t.iar == 1) = true ∧
    after (({ State.reset with iar := 0xFFE }).withFetchWord 16 0x8123) (fun t => t.iar == 0x123) = true ∧
    after (({ withRam [] with iar := 0x200, mem := [(0x200, 7)], addr := 0x100, a := 4, dbg := [(1, 2)] }).withFetchWord 8 0x3)
      (fun t => t.dbgValue 2 == some 4) = true := by decide

/-- R101 and the templates of R170. -/
theorem test_listing :
    listing (.nand .a .c) = "NAND A, C" ∧ listing (.jz 0 1 5) = "JZ 015" ∧
    recordText (.dbgWrite 0xA) = "wrote A to DBGOUT" ∧ recordText (.illegalInstruction 7 0x0B) = "illegal instruction 7 at B" := by
  decide

/-! ## Witnesses for the statements' hypotheses -/

/-- The machine is ready for an instruction whose nibbles an image holds: a check that can be evaluated. -/
def readyFor (s : State) (i : Instr) : Bool :=
  s.config.wellFormed && s.run == .running && !s.stopRequested &&
    decide (∀ k, (h : k < (encode i).length) → s.memRead (s.iar + BitVec.ofNat 12 k) = some (encode i)[k])

theorem ready_of_check {s : State} {i : Instr} (h : readyFor s i = true) : s.ReadyFor i := by
  simp only [readyFor, Bool.and_eq_true, beq_iff_eq, Bool.not_eq_true', decide_eq_true_eq] at h
  exact ⟨⟨h.1.1.1, h.1.1.2, h.1.2⟩, h.2⟩

/-- OpcodeFixesLength: enough operand nibbles, too few, an illegal opcode. -/
theorem witness_opcode_length :
    operandCount 0x8 ≤ [(1 : Nibble), 2, 3].length ∧ [(1 : Nibble), 2].length < operandCount 0x8 ∧ (0x0 : Nibble) ∈ illegalOpcodes ∧
    (0xF : Nibble) ∈ illegalOpcodes := by decide

/-- EveryCycleRunsOneInstruction, TakesCycle. -/
theorem witness_takes_cycle : (rom [0x12]).TakesCycle ∧ ({ rom [0x12] with iar := 0xFFF } : State).TakesCycle := by
  exact ⟨⟨rfl, rfl, rfl⟩, ⟨rfl, rfl, rfl⟩⟩

/-- StepRunsDecodedInstruction: more nibbles than the instruction has. -/
theorem witness_step_runs :
    (rom [0x12, 0x34]).TakesCycle ∧ (rom [0x12, 0x34]).NibblesAtIar [1, 2, 3] ∧ decode [1, 2, 3] = .ok (.ldi 2) [3] :=
  ⟨⟨rfl, rfl, rfl⟩, by unfold State.NibblesAtIar; decide, rfl⟩

/-- FetchReadsThenAdvances, WellFormedAccessesAnswer, WellFormedMachineAlwaysSteps, ResetSatisfiesInvariant: a configuration with each
kind of target, one that fills the space, one with a mapping of length 0. -/
theorem witness_well_formed :
    (withRam [0x12]).config.wellFormed = true ∧ overlay.config.wellFormed = true ∧ State.reset.config.wellFormed = true ∧
    Configuration.wellFormed { map := [{ base := 0, length := 4096, target := .rom (List.replicate 2048 0) }], hasStop := true } = true := by
  refine ⟨by decide, by decide, by decide, ?_⟩
  simp only [Configuration.wellFormed, Mapping.wellFormed, Mapping.inSpace, Mapping.targetFits, List.all_cons, List.all_nil,
    List.length_replicate]
  decide

/-- A halted state that meets the invariant: HaltedIsAbsorbing, EveryStepKeepsInvariant. -/
def haltedState : State :=
  { rom [0x70] with iar := 1, run := .halted, fault := some { opcode := 7, address := 0 }, trace := [.illegalInstruction 7 0] }

theorem witness_halted : haltedState.Inv ∧ haltedState.run = .halted :=
  ⟨⟨by decide, by decide, by decide, by decide, by decide, by decide, ⟨[], rfl, rfl⟩⟩, rfl⟩

/-- A running state with RAM, a DebugOutput value and a record, that meets the invariant: EveryStepKeepsInvariant. -/
def busyState : State :=
  { withRam [0x32] with addr := 0x20F, a := 3, mem := [(0x200, 9), (0x20F, 1)], dbg := [(1, 7)], trace := [.dbgWrite 7] }

theorem witness_busy : busyState.Inv ∧ after busyState (fun t => t.mem == [(0x200, 9), (0x20F, 3)]) = true :=
  ⟨⟨by decide, by decide, by decide, by decide, fun f hf => (by cases hf), by decide, rfl⟩, by decide⟩

/-- StopInputStopsBeforeFetch, first clause. -/
theorem witness_stop_asserted :
    (withStop [0x12] [true]).config.wellFormed = true ∧ (withStop [0x12] [true]).run = .running ∧
    (withStop [0x12] [true]).config.hasStop = true ∧ (withStop [0x12] [true]).stopInput = true :: [] := by decide

/-- StopInputStopsBeforeFetch, second clause. -/
theorem witness_stopped : ({ withStop [0x12] [] with run := .stopped } : State).Inv :=
  ⟨by decide, by decide, by decide, by decide, fun f hf => (by cases hf), by decide, rfl⟩

/-- StopInputStopsBeforeFetch, third clause; LdiLoadsImmediate. -/
theorem witness_no_stop :
    (rom [0x12]).config.hasStop = false ∧ (rom [0x12]).run = .running ∧ after (rom [0x12]) (fun t => t.run == .running) = true := by
  decide

/-- Ready for an instruction of each shape, an opcode at 4095 among them: the step clauses of the instruction statements. -/
theorem witness_ready :
    (rom [0x12]).ReadyFor (.ldi 2) ∧ (rom [0x20]).ReadyFor .lod ∧ (rom [0x30]).ReadyFor .str ∧ (rom [0x40]).ReadyFor .sar ∧
    (rom [0x50]).ReadyFor .sap ∧ (rom [0x69]).ReadyFor (.mov .c .b) ∧ (rom [0x60]).ReadyFor (.mov .a .a) ∧
    (rom [0xD2]).ReadyFor (.nand .a .c) ∧ (rom [0x80, 0x2A]).ReadyFor (.jmp 0 2 0xA) ∧ (rom [0x90]).ReadyFor .rjp ∧
    (rom [0xA0, 0x05]).ReadyFor (.jz 0 0 5) := by
  refine ⟨?_, ?_, ?_, ?_, ?_, ?_, ?_, ?_, ?_, ?_, ?_⟩ <;> exact ready_of_check (by decide)

/-- Ready for each illegal opcode: IllegalOpcodeHalts, ExecutionOffTheMapHalts. -/
theorem witness_ready_illegal :
    (rom []).ReadyFor .illegal0 ∧ ({ rom [] with iar := 0xFFF } : State).ReadyFor .illegal0 ∧ (rom [0x70]).ReadyFor .illegal7 ∧
    (rom [0xB0]).ReadyFor .illegalB ∧ (rom [0xC0]).ReadyFor .illegalC ∧ (rom [0xE0]).ReadyFor .illegalE ∧
    (rom [0xF0]).ReadyFor .illegalF := by
  refine ⟨?_, ?_, ?_, ?_, ?_, ?_, ?_⟩ <;> exact ready_of_check (by decide)

/-- JzBranchesOnZeroA: both branches, and not taken across the wrap (V-Z5). -/
theorem witness_jz_branches :
    (rom [0xA0, 0x05]).a = 0 ∧ ({ rom [0xA0, 0x05] with a := 3 } : State).a ≠ 0 ∧
    (({ State.reset with iar := 0xFFD, a := 1 } : State).placeAtIar [0xA, 1, 2, 3]).ReadyFor (.jz 1 2 3) :=
  ⟨rfl, by decide, ready_of_check (by decide)⟩

/-- NandPairIsAnd: two different registers. -/
theorem witness_nand_pair : Reg.a ≠ Reg.d := by decide

/-- What the four targets and no mapping resolve to, at the first and last address of a mapping: StrStoresByTarget,
ResolveFindsFirstMapping, RamReadReturnsLastWrite, RomWriteIsRejected, DebugOutputWriteEmits, UnmappedAccessIsZeroAndNoOp. -/
theorem witness_targets :
    (resolve (withRam [0x12]).config.map 0x001).map (fun h => (h.index, h.offset, h.mapping.target)) = some (0, 1, .rom [0x12]) ∧
    (resolve (withRam [0x12]).config.map 0x002) = none ∧
    (resolve (withRam [0x12]).config.map 0x100).map (fun h => (h.index, h.offset, h.mapping.target)) = some (1, 0, .debugOutput) ∧
    (resolve (withRam [0x12]).config.map 0x200).map (fun h => (h.index, h.offset, h.mapping.target)) =
      some (2, 0, .ram (ramInitDefault 16)) ∧
    (resolve (withRam [0x12]).config.map 0x20F).map (fun h => (h.index, h.offset)) = some (2, 15) ∧
    (resolve (withRam [0x12]).config.map 0x210) = none := by decide

/-- UnmappedAccessIsZeroAndNoOp: no mapping contains the address. -/
theorem witness_unmapped :
    ∀ m ∈ (withRam [0x12]).config.map, ¬(m.base ≤ (0x210 : Addr).toNat ∧ (0x210 : Addr).toNat < m.base + m.length) := by decide

/-- RomReadsHighNibbleFirst. -/
theorem witness_rom_byte : (image [0x12, 0x34])[1]? = some 0x34 := by decide

/-- IllFormedConfigurationIsRefused. -/
theorem witness_ill_formed :
    (State.resetWith { map := [{ base := 0, length := 2, target := .ram [0] }], hasStop := false }).config.wellFormed = false := by
  decide

/-- DefaultConfigurationReadsImage, LongImageHidesPort: images of 128 and 129 bytes. -/
theorem witness_image_lengths :
    (rom (List.replicate 128 0x11)).config = defaultConfiguration (image (List.replicate 128 0x11)) ∧
    (image (List.replicate 128 0x11)).length ≤ 128 ∧ 128 < (image (List.replicate 129 0x11)).length :=
  ⟨rfl, by simp [image], by simp [image]⟩

/-- StoredNibbleIsFetched. -/
theorem witness_store_then_fetch :
    (withRam []).config.wellFormed = true ∧
    resolve (withRam []).config.map ({ withRam [] with addr := 0x200, iar := 0x200 } : State).addr.toNat =
      some { index := 2, mapping := { base := 0x200, length := 16, target := .ram (ramInitDefault 16) }, offset := 0 } := by decide

/-- ResetSatisfiesInvariant, its last two clauses: a RAM mapping and a DebugOutput mapping. -/
theorem witness_reset_targets :
    overlay.config.map[0]?.map (·.target) = some (.ram (List.replicate 8 1)) ∧
    overlay.config.map[2]?.map (·.target) = some .debugOutput := by decide

/-- HaltsOnlyOnIllegalOpcode: a cycle that halts and one that does not. -/
theorem witness_halting :
    after (rom [0x70]) (fun t => t.run == .halted) = true ∧ (rom [0x70]).memRead 0 = some 7 ∧ (7 : Nibble) ∈ illegalOpcodes ∧
    after (rom [0x12]) (fun t => t.run == .running) = true := by decide

/-- ExecutionOffTheMapHalts: the port. -/
theorem witness_port_execution :
    (resolve (rom [0x12]).config.map 0x100).map (·.mapping.target) = some .debugOutput ∧
    ({ rom [0x12] with iar := 0x100 } : State).TakesCycle := ⟨by decide, rfl, rfl, rfl⟩

/-- EmptyAddressZeroHaltsAtOnce. -/
theorem witness_empty_zero : (defaultConfiguration []).wellFormed = true ∧ resolve (defaultConfiguration []).map 0 = none := by decide

/-- GeneralRegisterWriters, AddrRoles, TraceIsAppendOnly, RegisterCHasNoFixedRole: instructions that answer and change what is asked. -/
theorem witness_exec_answers :
    exec (.ldi 3) (rom [0x12]) = .next ((rom [0x12]).writeReg .a 3) ∧ ((rom [0x12]).writeReg .a 3).readReg .a ≠ (rom [0x12]).readReg .a ∧
    exec (.nand .c .c) (rom [0x12]) = .next ((rom [0x12]).writeReg .c 0xF) ∧
    exec (.mov .a .d) { rom [0x12] with a := 1 } = .next { rom [0x12] with a := 1, d := 1 } ∧
    exec .sar { rom [0x12] with a := 1 } = .next { rom [0x12] with a := 1, addr := 0x010 } ∧
    exec .str { rom [0x12] with addr := 0x100 } =
      .next (({ rom [0x12] with addr := 0x100 } : State).writePort 1 0) := by
  refine ⟨rfl, by decide, rfl, rfl, rfl, rfl⟩

/-- IarChangesOnlyAsListed, third clause: a halted machine, and a sampled stop. -/
theorem witness_iar_still :
    haltedState.run ≠ .running ∧ after haltedState (fun t => t == haltedState) = true ∧
    (withStop [0x12] [true]).stopRequested = true := by decide

/-- HiddenStateIsNeverObserved: two states that differ in a DebugOutput value and in `TRACE`. -/
theorem witness_hidden :
    ({ rom [0x32] with dbg := [(1, 7)], trace := [.dbgWrite 7] } : State).observed = (rom [0x32]).observed ∧
    ({ rom [0x32] with dbg := [(1, 7)], trace := [.dbgWrite 7] } : State) ≠ rom [0x32] := by decide

/-- JmpToItselfChangesNothing. -/
theorem witness_self_jump :
    (rom [0x80, 0x00]).ReadyFor (.jmp 0 0 0) ∧ (rom [0x80, 0x00]).config.hasStop = false ∧
    ofLimbs 0 0 0 = (rom [0x80, 0x00]).iar := ⟨ready_of_check (by decide), rfl, rfl⟩

end Sys2Proof.Tests
end

/-!
The family of the state (10_state.md): what each instruction answers, what a write of memory leaves alone, the invariant of every
step, what no rule reads, and who writes `IAR`, `ADDR`, the general registers and `TRACE`.
-/

namespace Sys2Proof.Machine

/-! ## What each instruction answers -/

@[simp] theorem exec_ldi (n : Nibble) (s : State) : exec (.ldi n) s = .next (s.writeReg .a n) := rfl

@[simp] theorem exec_sar (s : State) : exec .sar s = .next (s.setAddr (ofLimbs (limbHigh s.addr) s.a s.b)) := rfl

@[simp] theorem exec_sap (s : State) :
    exec .sap s = .next (s.setAddr (ofLimbs s.a (limbMid s.addr) (limbLow s.addr))) := rfl

@[simp] theorem exec_mov (p q : Reg) (s : State) : exec (.mov p q) s = .next (s.writeReg q (s.readReg p)) := rfl

@[simp] theorem exec_nand (p q : Reg) (s : State) :
    exec (.nand p q) s = .next (s.writeReg p (nandNibble (s.readReg p) (s.readReg q))) := rfl

@[simp] theorem exec_jmp (h m l : Nibble) (s : State) : exec (.jmp h m l) s = .next (s.setIar (ofLimbs h m l)) := rfl

@[simp] theorem exec_rjp (s : State) : exec .rjp s = .next (s.setIar (ofLimbs s.d s.a s.b)) := rfl

@[simp] theorem exec_jz (h m l : Nibble) (s : State) :
    exec (.jz h m l) s = .next (if s.a = 0 then s.setIar (ofLimbs h m l) else s) := by
  simp only [exec, execJz]
  split
  · rename_i hz
    rw [if_pos (by simpa [isZero] using hz)]
  · rename_i hz
    rw [if_neg (by simpa [isZero] using hz)]

/-- LOD answers exactly where the read at `ADDR` does. -/
theorem exec_lod_iff {s t : State} :
    exec .lod s = .next t ↔ ∃ v, s.memRead s.addr = some v ∧ t = s.writeReg .a v := by
  simp only [exec, execLod]
  cases s.memRead s.addr <;> simp [eq_comm]

/-- STR answers exactly what the write at `ADDR` does. -/
theorem exec_str_iff {s t : State} : exec .str s = .next t ↔ s.memWrite s.addr s.a = some t := by
  simp only [exec, execStr]
  cases s.memWrite s.addr s.a <;> simp

/-- Every illegal opcode takes the exception with its own opcode value. -/
theorem exec_illegal {i : Instr} (hi : i.opcode ∈ illegalOpcodes) (s : State) :
    exec i s = .next (s.raiseIllegal i.opcode) := by
  cases i with
  | illegal0 | illegal7 | illegalB | illegalC | illegalE | illegalF => rfl
  | _ => simp [Instr.opcode, illegalOpcodes] at hi

/-! ## The fetches, and the step of a machine that is ready for an instruction -/

/-- `Fetch()` adds 1 to `IAR`, modulo 4096. -/
theorem fetch_iar {s t : State} {n : Nibble} (h : s.fetch = some (n, t)) : t.iar = s.iar + 1 := by
  cases hm : s.memRead s.iar with
  | none => simp [State.fetch, hm] at h
  | some v =>
    rw [fetch_some hm] at h
    cases h
    rfl

theorem regP_operandR (p q : Reg) : regP (operandR p q) = p := by
  cases p <;> cases q <;> rfl

theorem regQ_operandR (p q : Reg) : regQ (operandR p q) = q := by
  cases p <;> cases q <;> rfl

/-- The decoder reads an encoding back and takes all of its nibbles. -/
theorem decodePlan_encode (i : Instr) : decodePlan (.need plan) (encode i) = .ok i [] := by
  cases i with
  | mov p q => exact congrArg₂ (fun p q => Decoded.ok (.mov p q) []) (regP_operandR p q) (regQ_operandR p q)
  | nand p q => exact congrArg₂ (fun p q => Decoded.ok (.nand p q) []) (regP_operandR p q) (regQ_operandR p q)
  | _ => rfl

theorem encode_length (i : Instr) : (encode i).length = i.length := by
  cases i <;> rfl

/-- Where the next step runs `i`, the fetches give `i` and leave `IAR` past its nibbles. -/
theorem fetchInstr_of_readyFor {s : State} {i : Instr} (h : s.ReadyFor i) :
    fetchInstr s.takeSample = some (i, s.fetched i) := by
  obtain ⟨k, hk, hf⟩ := fetchPlan_of_decodePlan (s := s.takeSample) h.2 (decodePlan_encode i)
  obtain rfl : i.length = k := by simpa [encode_length] using hk
  exact hf

/-- Where the next step runs `i`, the step is the effect of `i` after its fetches. -/
theorem step_of_readyFor {s : State} {i : Instr} (h : s.ReadyFor i) : step s = exec i (s.fetched i) :=
  step_of_fetch h.1 (fetchInstr_of_readyFor h)

/-! ## The step outside a cycle -/

/-- In `halted` and `stopped` a step changes nothing. -/
theorem step_of_not_running {s : State} (hc : s.config.wellFormed = true) (hr : s.run ≠ .running) : step s = .next s := by
  cases hrun : s.run with
  | running => exact absurd hrun hr
  | halted => simp only [step, hc, hrun]
  | stopped => simp only [step, hc, hrun]

/-- A stop that is sampled takes a running machine to `stopped`. -/
theorem step_of_stopRequested {s : State} (hc : s.config.wellFormed = true) (hr : s.run = .running)
    (hs : s.stopRequested = true) : step s = .next s.stop := by
  simp only [step, hc, hr, hs]

/-! ## What a write of memory leaves alone -/

/-- A write of memory changes no register, neither the run state nor the fault record, and not the configuration. -/
theorem memWrite_frame {s t : State} {x : Addr} {v : Nibble} (hw : s.memWrite x v = some t) :
    KeepsRegisters [] s t ∧ KeepsControl s t := by
  rcases memWrite_cases hw with ⟨_, rfl⟩ | ⟨_, _, ⟨_, _, rfl⟩ | ⟨_, _, _, rfl⟩ | ⟨_, rfl⟩⟩
  all_goals simp [KeepsRegisters, KeepsRegs, KeepsControl]

/-- From `s` to `t` one record was emitted, the one rule R170 of 60_exceptions.md gives a write of `v` at `x`: on a ROM the rejected
offset, on a DebugOutput the value. -/
def WriteEmits (x : Addr) (v : Nibble) (s t : State) : Prop :=
  ∃ h, resolve s.config.map x.toNat = some h ∧
    ((∃ buffer, h.mapping.target = .rom buffer ∧ t.trace = s.trace ++ [.romWriteRejected h.offset]) ∨
     (h.mapping.target = .debugOutput ∧ t.trace = s.trace ++ [.dbgWrite v]))

/-- A write of memory emits only on a ROM or a DebugOutput, and one record. -/
theorem memWrite_trace {s t : State} {x : Addr} {v : Nibble} (hw : s.memWrite x v = some t) :
    t.trace = s.trace ∨ WriteEmits x v s t := by
  rcases memWrite_cases hw with ⟨_, rfl⟩ | ⟨h, hr, ⟨buffer, ht, rfl⟩ | ⟨_, _, _, rfl⟩ | ⟨ht, rfl⟩⟩
  · exact .inl rfl
  · exact .inr ⟨h, hr, .inl ⟨buffer, ht, rfl⟩⟩
  · exact .inl rfl
  · exact .inr ⟨h, hr, .inr ⟨ht, rfl⟩⟩

/-! ## The invariant -/

/-- A state without a fault record meets the invariant if its storage is in canonical form and `TRACE` holds no
`IllegalInstruction`. -/
theorem inv_of_no_fault {s : State} (hc : s.config.wellFormed = true)
    (hm : Memory.wf (ramUnlisted s.config.map) s.mem = true) (hd : Memory.wf (portUnlisted s.config.map) s.dbg = true)
    (hr : s.run ≠ .halted) (hs : s.run = .stopped → s.config.hasStop = true) (hf : s.fault = none)
    (ht : traceAgrees none s.trace) : s.Inv where
  configuration := hc
  ram := hm
  ports := hd
  faultIffHalted := by simp [hr, hf]
  faultRecord f h := by simp [hf] at h
  stoppedOnlyWithStop := hs
  trace := by rw [hf]; exact ht

theorem State.Inv.fault_of_running {s : State} (hs : s.Inv) (hr : s.run = .running) : s.fault = none := by
  simpa [hr] using hs.faultIffHalted

theorem State.Inv.trace_of_running {s : State} (hs : s.Inv) (hr : s.run = .running) :
    traceAgrees none s.trace := by
  have h := hs.trace
  rwa [hs.fault_of_running hr] at h

/-- A running state that differs in registers and the stop input alone meets the invariant too. -/
theorem State.Inv.of_keeps_storage {s t : State} (hs : s.Inv) (hr : s.run = .running) (hc : t.config = s.config)
    (hm : t.mem = s.mem) (hd : t.dbg = s.dbg) (hrun : t.run = s.run) (hf : t.fault = s.fault) (ht : t.trace = s.trace) :
    t.Inv := by
  rw [hr] at hrun
  refine inv_of_no_fault ?_ ?_ ?_ (by simp [hrun]) (by simp [hrun]) (hf.trans (hs.fault_of_running hr)) ?_
  · rw [hc]
    exact hs.configuration
  · rw [hc, hm]
    exact hs.ram
  · rw [hc, hd]
    exact hs.ports
  · rw [ht]
    exact hs.trace_of_running hr

/-- A write of memory emits no `IllegalInstruction`. -/
theorem memWrite_no_illegal {s t : State} {x : Addr} {v : Nibble} (hw : s.memWrite x v = some t)
    (hs : traceAgrees none s.trace) : traceAgrees none t.trace := by
  rcases memWrite_trace hw with ht | ⟨_, _, ⟨_, _, ht⟩ | ⟨_, ht⟩⟩
  all_goals rw [ht]; simpa [traceAgrees, Record.isIllegal] using hs

theorem memWrite_keeps_inv {s t : State} {x : Addr} {v : Nibble} (hs : s.Inv) (hr : s.run = .running)
    (hw : s.memWrite x v = some t) : t.Inv := by
  obtain ⟨_, hrun, hfault, hconfig, _⟩ := memWrite_frame hw
  rw [hr] at hrun
  refine inv_of_no_fault ?_ (memWrite_keeps_ram_wf hs.ram hw) (memWrite_keeps_port_wf hs.ports hw) (by simp [hrun])
    (by simp [hrun]) (hfault.trans (hs.fault_of_running hr)) (memWrite_no_illegal hw (hs.trace_of_running hr))
  rw [hconfig]
  exact hs.configuration

theorem raiseIllegal_keeps_inv {s : State} {op : Nibble} (hs : s.Inv) (hr : s.run = .running) (hop : op ∈ illegalOpcodes) :
    (s.raiseIllegal op).Inv where
  configuration := hs.configuration
  ram := hs.ram
  ports := hs.ports
  faultIffHalted := by simp
  faultRecord f hf := by
    obtain rfl : { opcode := op, address := s.iar - 1 } = f := by simpa using hf
    simp [hop]
  stoppedOnlyWithStop h := by simp at h
  trace := ⟨s.trace, rfl, hs.trace_of_running hr⟩

theorem stop_keeps_inv {s : State} (hs : s.Inv) (hr : s.run = .running) (hstop : s.stopRequested = true) : s.stop.Inv := by
  have hHas : s.config.hasStop = true := by
    simp only [State.stopRequested, Bool.and_eq_true] at hstop
    exact hstop.1
  exact inv_of_no_fault hs.configuration hs.ram hs.ports (by simp) (fun _ => hHas) (hs.fault_of_running hr)
    (hs.trace_of_running hr)

/-- Every instruction of a running machine keeps the invariant. -/
theorem exec_keeps_inv {i : Instr} {s t : State} (hs : s.Inv) (hr : s.run = .running) (h : exec i s = .next t) : t.Inv := by
  rcases exec_cases h with ⟨r, v, rfl⟩ | ⟨x, rfl⟩ | ⟨_, x, rfl⟩ | ⟨_, hw⟩ | ⟨hop, rfl⟩
  · apply hs.of_keeps_storage hr <;> simp
  · apply hs.of_keeps_storage hr <;> simp
  · apply hs.of_keeps_storage hr <;> simp
  · exact memWrite_keeps_inv hs hr hw
  · exact raiseIllegal_keeps_inv hs hr hop

/-- Settles O33: a fetch leaves storage alone, and every instruction of a running machine keeps the invariant. -/
theorem everyStepKeepsInvariant : Obligations.EveryStepKeepsInvariant := by
  intro s t hs h
  obtain ⟨_, ⟨_, rfl⟩ | ⟨hr, hstop, rfl⟩ | ⟨hr, _, i, x, _, hi⟩⟩ := step_cases h
  · exact hs
  · exact stop_keeps_inv hs hr hstop
  · have hFetched : (s.takeSample.setIar x).Inv := hs.of_keeps_storage hr rfl rfl rfl rfl rfl rfl
    exact exec_keeps_inv hFetched hr hi

/-! ## The configuration -/

/-- Settles O40: neither a fetch nor an instruction writes the configuration. -/
theorem configurationNeverChanges : Obligations.ConfigurationNeverChanges := by
  intro s t h
  obtain ⟨_, ⟨_, rfl⟩ | ⟨_, _, rfl⟩ | ⟨_, _, i, x, _, hi⟩⟩ := step_cases h
  · rfl
  · rfl
  · exact (exec_config_stopInput hi).1

/-! ## Noninterference: DebugOutput values and `TRACE` -/

/-- The state with other DebugOutput values and another `TRACE`. -/
def State.withHidden (s : State) (d : Memory) (tr : List Record) : State := { s with dbg := d, trace := tr }

/-- Two states that agree on what is observed differ in the hidden part alone. -/
theorem eq_withHidden_of_observed {s s' : State} (h : s.observed = s'.observed) : s' = s.withHidden s'.dbg s'.trace := by
  cases s
  cases s'
  simp only [State.observed, State.mk.injEq] at h
  simp only [State.withHidden, State.mk.injEq]
  tauto

@[simp] theorem observed_withHidden (s : State) (d : Memory) (tr : List Record) :
    (s.withHidden d tr).observed = s.observed := rfl

@[simp] theorem withHidden_readReg (s : State) (d : Memory) (tr : List Record) (r : Reg) :
    (s.withHidden d tr).readReg r = s.readReg r := by
  cases r <;> rfl

@[simp] theorem withHidden_memRead (s : State) (d : Memory) (tr : List Record) (x : Addr) :
    (s.withHidden d tr).memRead x = s.memRead x :=
  memRead_congr rfl rfl x

theorem withHidden_writeReg (s : State) (d : Memory) (tr : List Record) (r : Reg) (v : Nibble) :
    (s.withHidden d tr).writeReg r v = (s.writeReg r v).withHidden d tr := by
  cases r <;> rfl

/-- A write of memory emits the same record and has the same effect whatever the hidden part holds. -/
theorem memWrite_withHidden {s t : State} {x : Addr} {v : Nibble} (hw : s.memWrite x v = some t) (d : Memory)
    (tr : List Record) : ∃ d' records, t.trace = s.trace ++ records ∧
      (s.withHidden d tr).memWrite x v = some (t.withHidden d' (tr ++ records)) := by
  rcases memWrite_cases hw with ⟨hr, rfl⟩ | ⟨h, hr, ⟨buffer, ht, rfl⟩ | ⟨init, ht, hl, rfl⟩ | ⟨ht, rfl⟩⟩
  · exact ⟨d, [], by simp, by rw [List.append_nil]; exact memWrite_unmapped (s := t.withHidden d tr) hr v⟩
  · exact ⟨d, _, rfl, memWrite_rom (s := s.withHidden d tr) hr ht v⟩
  · exact ⟨d, [], by simp, by rw [List.append_nil]; exact memWrite_ram (s := s.withHidden d tr) hr ht hl v⟩
  · exact ⟨_, _, rfl, memWrite_port (s := s.withHidden d tr) hr ht v⟩

/-- An instruction emits the same records and has the same effect whatever the hidden part holds. -/
theorem exec_withHidden {i : Instr} {s t : State} (h : exec i s = .next t) (d : Memory) (tr : List Record) :
    ∃ d' records, t.trace = s.trace ++ records ∧
      exec i (s.withHidden d tr) = .next (t.withHidden d' (tr ++ records)) := by
  cases i with
  | lod =>
    obtain ⟨v, hv, rfl⟩ := exec_lod_iff.mp h
    exact ⟨d, [], by simp, exec_lod_iff.mpr ⟨v, (withHidden_memRead ..).trans hv, by simp [withHidden_writeReg]⟩⟩
  | str =>
    obtain ⟨d', records, ht, hw⟩ := memWrite_withHidden (exec_str_iff.mp h) d tr
    exact ⟨d', records, ht, exec_str_iff.mpr hw⟩
  | ldi n | mov p q | nand p q =>
    cases h
    exact ⟨d, [], by simp, by simp [withHidden_writeReg]⟩
  | jz x m l =>
    rw [exec_jz] at h ⊢
    cases h
    refine ⟨d, [], ?_, ?_⟩
    · split <;> simp
    · rw [List.append_nil, apply_ite (State.withHidden · d tr)]
      rfl
  | jmp x m l | rjp | sar | sap =>
    cases h
    exact ⟨d, [], by simp, by rw [List.append_nil]; rfl⟩
  | illegal0 | illegal7 | illegalB | illegalC | illegalE | illegalF =>
    cases h
    exact ⟨d, _, rfl, rfl⟩

/-- The fetches of an instruction read neither the DebugOutput values nor `TRACE`. -/
theorem fetchPlan_withHidden {p : Plan} {s t : State} {i : Instr} (h : fetchPlan p s = some (i, t)) (d : Memory)
    (tr : List Record) : fetchPlan p (s.withHidden d tr) = some (i, t.withHidden d tr) := by
  induction p generalizing s with
  | done j =>
    simp only [fetchPlan, Option.some.injEq, Prod.mk.injEq] at h ⊢
    exact ⟨h.1, congrArg (State.withHidden · d tr) h.2⟩
  | need next ih =>
    cases hm : s.memRead s.iar with
    | none => simp [fetchPlan, State.fetch, hm] at h
    | some n =>
      have hm' : (s.withHidden d tr).memRead (s.withHidden d tr).iar = some n := (withHidden_memRead ..).trans hm
      simp only [fetchPlan, fetch_some hm] at h
      simp only [fetchPlan, fetch_some hm']
      exact ih n h

/-- A step emits the same records and has the same effect whatever the hidden part holds. -/
theorem step_withHidden {s t : State} (h : step s = .next t) (d : Memory) (tr : List Record) :
    ∃ d' records, t.trace = s.trace ++ records ∧ step (s.withHidden d tr) = .next (t.withHidden d' (tr ++ records)) := by
  obtain ⟨hc, ⟨hr, rfl⟩ | ⟨hr, hs, rfl⟩ | ⟨hr, hs, i, x, hf, hi⟩⟩ := step_cases h
  · exact ⟨d, [], by simp, by rw [List.append_nil]; exact step_of_not_running (s := t.withHidden d tr) hc hr⟩
  · exact ⟨d, [], by simp, by rw [List.append_nil]; exact step_of_stopRequested (s := s.withHidden d tr) hc hr hs⟩
  · obtain ⟨d', records, ht, hi'⟩ := exec_withHidden hi d tr
    have hf' : fetchInstr (s.withHidden d tr).takeSample = some (i, (s.takeSample.setIar x).withHidden d tr) :=
      fetchPlan_withHidden hf d tr
    exact ⟨d', records, ht, (step_of_fetch (s := s.withHidden d tr) ⟨hc, hr, hs⟩ hf').trans hi'⟩

/-- Settles O46: the second state is the first with another hidden part, and no step looks at that part. -/
theorem hiddenStateIsNeverObserved : Obligations.HiddenStateIsNeverObserved := by
  intro s s' t hobs h
  obtain ⟨d', records, ht, hstep⟩ := step_withHidden h s'.dbg s'.trace
  rw [← eq_withHidden_of_observed hobs] at hstep
  exact ⟨_, records, hstep, (observed_withHidden ..).symm, ht, rfl⟩

/-! ## The roles of `ADDR` -/

/-- An instruction other than SAR and SAP leaves `ADDR` as it was. -/
theorem exec_addr {i : Instr} {s t : State} (h : exec i s = .next t) (hr : i ≠ .sar) (hp : i ≠ .sap) : t.addr = s.addr := by
  rcases exec_cases h with ⟨r, v, rfl⟩ | ⟨x, rfl⟩ | ⟨rfl | rfl, _⟩ | ⟨_, hw⟩ | ⟨_, rfl⟩
  · simp
  · simp
  · exact absurd rfl hr
  · exact absurd rfl hp
  · obtain ⟨⟨_, _, haddr⟩, _⟩ := memWrite_frame hw
    exact haddr
  · simp

theorem setAddr_writeReg (s : State) (x : Addr) (r : Reg) (v : Nibble) :
    (s.setAddr x).writeReg r v = (s.writeReg r v).setAddr x := by
  cases r <;> rfl

/-- On an instruction other than LOD and STR another value of `ADDR` changes nothing but `ADDR`. -/
theorem exec_setAddr {i : Instr} {s t : State} (hl : i ≠ .lod) (hs : i ≠ .str) (h : exec i s = .next t) (x : Addr) :
    ∃ y, exec i (s.setAddr x) = .next (t.setAddr y) := by
  cases i with
  | lod => exact absurd rfl hl
  | str => exact absurd rfl hs
  | sar | sap =>
    cases h
    exact ⟨_, rfl⟩
  | ldi n | mov p q | nand p q =>
    cases h
    exact ⟨x, by simp [setAddr_writeReg]⟩
  | jz a m l =>
    rw [exec_jz] at h
    cases h
    refine ⟨x, ?_⟩
    rw [exec_jz, apply_ite (State.setAddr · x)]
    rfl
  | jmp a m l | rjp | illegal0 | illegal7 | illegalB | illegalC | illegalE | illegalF =>
    cases h
    exact ⟨x, rfl⟩

/-- Settles O41: the writers by the inversion of `exec`, the readers by running each instruction on another `ADDR`. -/
theorem addrRoles : Obligations.AddrRoles := by
  refine ⟨fun i s t h hr hp => exec_addr h hr hp, fun s t h => ?_, fun s t h => ?_, fun s => rfl,
    fun i s t x hl hs h => exec_setAddr hl hs h x⟩
  · cases h
    rfl
  · cases h
    rfl

/-! ## What changes `IAR` -/

/-- The instructions that may set `IAR` themselves. -/
def isJump : Instr → Bool
  | .jmp _ _ _ | .rjp | .jz _ _ _ => true
  | _ => false

/-- An instruction that is no jump leaves `IAR` where its fetches put it. -/
theorem exec_iar_of_not_jump {i : Instr} {s t : State} (hj : isJump i = false) (h : exec i s = .next t) :
    t.iar = s.iar := by
  cases i with
  | jmp | rjp | jz => simp [isJump] at hj
  | lod =>
    obtain ⟨v, _, rfl⟩ := exec_lod_iff.mp h
    simp
  | str =>
    obtain ⟨⟨_, hiar, _⟩, _⟩ := memWrite_frame (exec_str_iff.mp h)
    exact hiar
  | _ =>
    cases h
    simp

/-- Settles O42: a cycle leaves `IAR` past the nibbles fetched, and then only a jump sets it; without a cycle nothing does. -/
theorem iarChangesOnlyAsListed : Obligations.IarChangesOnlyAsListed := by
  refine ⟨fun s n t h => ?_, fun i s t hr h => ?_, fun s t h hstill => ?_, fun s => rfl⟩
  · rw [fetch_iar h, BitVec.toNat_add]
    rfl
  · rw [step_of_readyFor hr] at h
    cases i with
    | jmp | rjp =>
      cases h
      rfl
    | jz x m l =>
      rw [exec_jz] at h
      cases h
      exact apply_ite State.iar _ _ _
    | _ => exact exec_iar_of_not_jump rfl h
  · obtain ⟨_, ⟨_, rfl⟩ | ⟨_, _, rfl⟩ | ⟨hrun, hs, _⟩⟩ := step_cases h
    · rfl
    · rfl
    · simp [hrun, hs] at hstill

/-! ## Who writes a general register -/

/-- A write of a register changes no other. -/
theorem eq_of_readReg_writeReg_ne {s : State} {q r : Reg} {v : Nibble} (h : (s.writeReg r v).readReg q ≠ s.readReg q) :
    q = r := by
  by_contra hne
  exact h (readReg_writeReg_other s v hne)

/-- Settles O43: each instruction that writes a register writes the one named, and every other instruction keeps them all. -/
theorem generalRegisterWriters : Obligations.GeneralRegisterWriters := by
  intro i s t r h hne
  cases i with
  | ldi n =>
    cases h
    exact .inl ⟨eq_of_readReg_writeReg_ne hne, .inl ⟨n, rfl⟩⟩
  | lod =>
    obtain ⟨v, _, rfl⟩ := exec_lod_iff.mp h
    exact .inl ⟨eq_of_readReg_writeReg_ne hne, .inr rfl⟩
  | mov p q =>
    cases h
    obtain rfl := eq_of_readReg_writeReg_ne hne
    exact .inr (.inl ⟨p, rfl⟩)
  | nand p q =>
    cases h
    obtain rfl := eq_of_readReg_writeReg_ne hne
    exact .inr (.inr ⟨q, rfl⟩)
  | str =>
    obtain ⟨⟨hregs, _⟩, _⟩ := memWrite_frame (exec_str_iff.mp h)
    exact absurd (hregs r (by simp)) hne
  | jz x m l =>
    rw [exec_jz] at h
    cases h
    split at hne <;> simp at hne
  | _ =>
    cases h
    simp at hne

/-! ## The role of register `C` -/

theorem emit_writeReg (s : State) (e : Record) (r : Reg) (u : Nibble) :
    (s.writeReg r u).emit e = (s.emit e).writeReg r u := by
  cases r <;> rfl

theorem writeRam_writeReg (s : State) (x : Addr) (v : Nibble) (r : Reg) (u : Nibble) :
    (s.writeReg r u).writeRam x v = (s.writeRam x v).writeReg r u := by
  cases r <;> rfl

theorem writePort_writeReg (s : State) (i : Nat) (v : Nibble) (r : Reg) (u : Nibble) :
    (s.writeReg r u).writePort i v = (s.writePort i v).writeReg r u := by
  cases r <;> rfl

/-- A write of memory neither reads nor writes a general register. -/
theorem memWrite_writeReg {s t : State} {x : Addr} {v : Nibble} (hw : s.memWrite x v = some t) (r : Reg) (u : Nibble) :
    (s.writeReg r u).memWrite x v = some (t.writeReg r u) := by
  have hc : (s.writeReg r u).config = s.config := writeReg_config s r u
  rcases memWrite_cases hw with ⟨hr, rfl⟩ | ⟨h, hr, ⟨buffer, ht, rfl⟩ | ⟨init, ht, hl, rfl⟩ | ⟨ht, rfl⟩⟩
  · exact memWrite_unmapped (by rw [hc]; exact hr) v
  · rw [← emit_writeReg]
    exact memWrite_rom (by rw [hc]; exact hr) ht v
  · rw [← writeRam_writeReg]
    exact memWrite_ram (by rw [hc]; exact hr) ht hl v
  · rw [← writePort_writeReg]
    exact memWrite_port (by rw [hc]; exact hr) ht v

/-- Settles O44: each instruction but MOV and NAND, run on another value of `C`, answers the same state with that value. -/
theorem registerCHasNoFixedRole : Obligations.RegisterCHasNoFixedRole := by
  intro i s t v hi h
  cases i with
  | mov p q => exact absurd rfl (hi p q).1
  | nand p q => exact absurd rfl (hi p q).2
  | lod =>
    obtain ⟨n, hn, rfl⟩ := exec_lod_iff.mp h
    exact exec_lod_iff.mpr ⟨n, (writeReg_memRead ..).trans hn, rfl⟩
  | str => exact exec_str_iff.mpr (memWrite_writeReg (exec_str_iff.mp h) .c v)
  | jz x m l =>
    rw [exec_jz] at h
    cases h
    rw [exec_jz, apply_ite (State.writeReg · .c v)]
    rfl
  | _ =>
    cases h
    rfl

/-! ## `TRACE` -/

/-- What an instruction emits (60_exceptions.md rule R170): nothing, STR on a ROM or a DebugOutput its record, an illegal opcode its
own. -/
theorem exec_trace {i : Instr} {s t : State} (h : exec i s = .next t) :
    t.trace = s.trace ∨ (i = .str ∧ WriteEmits s.addr s.a s t) ∨
    (i.opcode ∈ illegalOpcodes ∧ t.trace = s.trace ++ [.illegalInstruction i.opcode (s.iar - 1)]) := by
  rcases exec_cases h with ⟨r, v, rfl⟩ | ⟨x, rfl⟩ | ⟨_, x, rfl⟩ | ⟨rfl, hw⟩ | ⟨hop, rfl⟩
  · exact .inl (writeReg_trace s r v)
  · exact .inl rfl
  · exact .inl rfl
  · exact (memWrite_trace hw).imp_right fun hemit => .inl ⟨rfl, hemit⟩
  · exact .inr (.inr ⟨hop, rfl⟩)

/-- An instruction appends at most one record. -/
theorem exec_appends_at_most_one {i : Instr} {s t : State} (h : exec i s = .next t) :
    t.trace = s.trace ∨ ∃ r, t.trace = s.trace ++ [r] := by
  rcases exec_trace h with ht | ⟨_, _, _, ⟨_, _, ht⟩ | ⟨_, ht⟩⟩ | ⟨_, ht⟩
  · exact .inl ht
  · exact .inr ⟨_, ht⟩
  · exact .inr ⟨_, ht⟩
  · exact .inr ⟨_, ht⟩

/-- Settles O45: the stop and the fetches emit nothing, and an instruction emits what `exec_trace` says. -/
theorem traceIsAppendOnly : Obligations.TraceIsAppendOnly := by
  refine ⟨fun s t h => ?_, fun i s t h hne => (exec_trace h).resolve_left hne⟩
  obtain ⟨_, ⟨_, rfl⟩ | ⟨_, _, rfl⟩ | ⟨_, _, i, x, _, hi⟩⟩ := step_cases h
  · exact .inl rfl
  · exact .inl rfl
  · exact exec_appends_at_most_one (s := s.takeSample.setIar x) hi

/-! ## Limbs of a 12-bit register -/

theorem toNat_ofLimbs (h m l : Nibble) : (ofLimbs h m l).toNat = h.toNat * 256 + m.toNat * 16 + l.toNat := by
  have append : ∀ {w : Nat} (x : BitVec w) (y : Nibble), (x ++ y).toNat = x.toNat * 16 + y.toNat := fun x y => by
    rw [BitVec.toNat_append, ← Nat.shiftLeft_add_eq_or_of_lt y.isLt, Nat.shiftLeft_eq]
  rw [ofLimbs, append, append]
  omega

theorem toNat_limbHigh (x : Addr) : (limbHigh x).toNat = x.toNat / 256 % 16 := by
  simp [limbHigh, Nat.shiftRight_eq_div_pow]

theorem toNat_limbMid (x : Addr) : (limbMid x).toNat = x.toNat / 16 % 16 := by
  simp [limbMid, Nat.shiftRight_eq_div_pow]

theorem toNat_limbLow (x : Addr) : (limbLow x).toNat = x.toNat % 16 := by
  simp [limbLow]

/-- Settles O48: both sides have the same weighted sum of nibbles. -/
theorem limbsMakeTheAddress : Obligations.LimbsMakeTheAddress := by
  refine ⟨fun h m l => ?_, fun x => ?_⟩
  · have sum := toNat_ofLimbs h m l
    have hm := m.isLt
    have hl := l.isLt
    have hh := h.isLt
    refine ⟨sum, ?_, ?_, ?_⟩ <;> apply BitVec.eq_of_toNat_eq
    · rw [toNat_limbHigh]
      omega
    · rw [toNat_limbMid]
      omega
    · rw [toNat_limbLow]
      omega
  · have value : x.toNat = (limbHigh x).toNat * 256 + (limbMid x).toNat * 16 + (limbLow x).toNat := by
      have hx := x.isLt
      rw [toNat_limbHigh, toNat_limbMid, toNat_limbLow]
      omega
    exact ⟨BitVec.eq_of_toNat_eq ((toNat_ofLimbs _ _ _).trans value.symm), value⟩

end Sys2Proof.Machine

/-!
The family of memory (20_memory.md): what resolution finds, the order of the nibbles in a ROM, reads and writes by target, the
default configuration, and execution of what memory answers.
-/

namespace Sys2Proof.Machine

/-! ## Resolution: the first match -/

theorem resolveFrom_none_iff {ms : List Mapping} {i a : Nat} :
    resolveFrom i ms a = none ↔ ∀ m ∈ ms, contains m a = false := by
  induction ms generalizing i with
  | nil => simp [resolveFrom]
  | cons m ms ih =>
    cases hc : contains m a with
    | true => simp [resolveFrom, hc]
    | false => simp [resolveFrom, hc, ih]

theorem resolve_none_iff {map : List Mapping} {a : Nat} :
    resolve map a = none ↔ ∀ m ∈ map, ¬(m.base ≤ a ∧ a < m.base + m.length) := by
  simp only [resolve, resolveFrom_none_iff, Bool.eq_false_iff, ne_eq, contains_iff]

/-- A scan passes over a mapping only if it does not contain the address. -/
theorem resolveFrom_first {ms : List Mapping} {i j a : Nat} {h : Hit} {m : Mapping} (hr : resolveFrom i ms a = some h)
    (hj : i + j < h.index) (hm : ms[j]? = some m) : contains m a = false := by
  induction ms generalizing i j with
  | nil => simp [resolveFrom] at hr
  | cons m' ms ih =>
    simp only [resolveFrom] at hr
    split at hr
    · cases hr
      simp only at hj
      omega
    · rename_i hc
      cases j with
      | zero =>
        cases hm
        simpa using hc
      | succ j => exact ih hr (by omega) hm

/-- No mapping before the one found contains the address (20_memory.md rule R53). -/
theorem resolve_first {map : List Mapping} {j a : Nat} {h : Hit} {m : Mapping} (hr : resolve map a = some h)
    (hj : j < h.index) (hm : map[j]? = some m) : ¬(m.base ≤ a ∧ a < m.base + m.length) := by
  rw [← contains_iff, Bool.not_eq_true]
  exact resolveFrom_first hr (by omega) hm

/-- The hit with the properties of rule R54 is the one `resolve` answers: of two first matches neither comes before the other. -/
theorem resolve_eq_some {map : List Mapping} {a : Nat} {h : Hit} (hm : map[h.index]? = some h.mapping)
    (hin : h.mapping.base ≤ a ∧ a < h.mapping.base + h.mapping.length) (ho : h.offset = a - h.mapping.base)
    (hfirst : ∀ j m, j < h.index → map[j]? = some m → ¬(m.base ≤ a ∧ a < m.base + m.length)) :
    resolve map a = some h := by
  cases hr : resolve map a with
  | none => exact absurd hin (resolve_none_iff.mp hr _ (List.mem_of_getElem? hm))
  | some h' =>
    obtain ⟨hm', hlo, hhi, ho'⟩ := resolve_some hr
    have hindex : h'.index = h.index := by
      rcases Nat.lt_trichotomy h'.index h.index with hlt | heq | hgt
      · exact absurd ⟨hlo, hhi⟩ (hfirst _ _ hlt hm')
      · exact heq
      · exact absurd hin (resolve_first hr hgt hm)
    have hmapping : h'.mapping = h.mapping := by
      rw [hindex, hm] at hm'
      simpa using hm'.symm
    have hoffset : h'.offset = h.offset := by rw [ho', ho, hmapping]
    have hhit : h' = h := by
      cases h
      cases h'
      exact (Hit.mk.injEq ..).mpr ⟨hindex, hmapping, hoffset⟩
    rw [hhit]

/-- Settles O22: what `resolve` answers has the four properties, and they determine the hit. -/
theorem resolveFindsFirstMapping : Obligations.ResolveFindsFirstMapping := by
  refine fun map x => ⟨fun h => ⟨fun hr => ?_, fun ⟨hm, hin, ho, hfirst⟩ => resolve_eq_some hm hin ho hfirst⟩,
    resolve_none_iff⟩
  obtain ⟨hm, hlo, hhi, ho⟩ := resolve_some hr
  exact ⟨hm, ⟨hlo, hhi⟩, ho, fun j m hj hjm => resolve_first hr hj hjm⟩

/-! ## The nibbles of a ROM -/

@[simp] theorem romRead_nil (k : Nat) : romRead [] k = none := by
  simp [romRead]

/-- Offsets from 2 on are those of the buffer without its first byte. -/
@[simp] theorem romRead_cons_add_two (b : Byte) (bs : List Byte) (k : Nat) : romRead (b :: bs) (k + 2) = romRead bs k := by
  simp [romRead]

theorem romRead_eq_imageNibbles (buffer : List Byte) (k : Nat) : romRead buffer k = (imageNibbles buffer)[k]? := by
  induction buffer generalizing k with
  | nil => simp [imageNibbles]
  | cons b bs ih =>
    match k with
    | 0 => rfl
    | 1 => rfl
    | k + 2 => simpa [imageNibbles] using ih k

@[simp] theorem length_imageNibbles (buffer : List Byte) : (imageNibbles buffer).length = 2 * buffer.length := by
  induction buffer with
  | nil => rfl
  | cons b bs ih =>
    simp only [imageNibbles, List.length_cons, ih]
    omega

theorem highNibble_eq (b : Byte) : highNibble b = BitVec.ofNat 4 (b.toNat / 16) := by
  apply BitVec.eq_of_toNat_eq
  simp [highNibble, Nat.shiftRight_eq_div_pow]

theorem lowNibble_eq (b : Byte) : lowNibble b = BitVec.ofNat 4 (b.toNat % 16) := by
  apply BitVec.eq_of_toNat_eq
  simp [lowNibble]

/-- Settles O23: the ROM read and the nibble stream recurse through the bytes alike, and offsets `2k` and `2k+1` select byte `k`. -/
theorem romReadsHighNibbleFirst : Obligations.RomReadsHighNibbleFirst := by
  refine fun buffer => ⟨romRead_eq_imageNibbles buffer, fun k b hb => ⟨?_, ?_⟩⟩
  · simp [romRead, hb, highNibble_eq]
  · have hhalf : (2 * k + 1) / 2 = k := by omega
    have hodd : (2 * k + 1) % 2 = 1 := by omega
    simp [romRead, hhalf, hodd, hb, lowNibble_eq]

/-! ## Reads and writes by target -/

/-- The cell a RAM write reaches holds the value written. -/
theorem ramCell_writeRam_same {s : State} {x : Addr} {h : Hit} {init : List Nibble} (hr : resolve s.config.map x.toNat = some h)
    (ht : h.mapping.target = .ram init) (hl : h.offset < init.length) (v : Nibble) :
    (s.writeRam x v).ramCell h.index h.offset = some v := by
  rw [ramCell_at (s := s.writeRam x v) hr ht, ← memRead_ram (s := s.writeRam x v) hr ht]
  exact writeRam_memRead_same hr ht hl v

/-- After reset an address that resolves to a RAM reads as its `RAM_INIT` nibble (10_state.md rule R40). -/
theorem resetWith_memRead_ram {c : Configuration} {x : Addr} {h : Hit} {init : List Nibble}
    (hr : resolve c.map x.toNat = some h) (ht : h.mapping.target = .ram init) :
    (State.resetWith c).memRead x = init[h.offset]? := by
  rw [memRead_ram (s := State.resetWith c) hr ht, ← ramUnlisted_ram hr ht]
  exact get_nil _ _

/-- Settles O24: the write is `writeRam`, whose laws give the cell read back and every other cell unchanged. -/
theorem ramReadReturnsLastWrite : Obligations.RamReadReturnsLastWrite := by
  intro s x v h init hc hr ht
  have hl := ram_in_cells hc hr ht
  have hw := memWrite_ram hr ht hl v
  obtain ⟨hregs, hcontrol⟩ := memWrite_frame hw
  exact ⟨(memRead_ram hr ht).trans (ramCell_at hr ht).symm, resetWith_memRead_ram hr ht, _, hw,
    writeRam_memRead_same hr ht hl v, ramCell_writeRam_same hr ht hl v, fun y hy => writeRam_memRead_other s v hy,
    fun i off hne => ramCell_writeRam_other hr v hne, hregs, hcontrol, writeRam_dbgValue s x v, rfl⟩

/-- Settles O25: the write is the record alone. -/
theorem romWriteIsRejected : Obligations.RomWriteIsRejected := by
  intro s x v h buffer hr ht
  have hw := memWrite_rom hr ht v
  obtain ⟨hregs, hcontrol⟩ := memWrite_frame hw
  exact ⟨_, hw, rfl, emit_memRead .., emit_memRead s _, hregs, hcontrol, emit_dbgValue s _⟩

/-- Settles O26: the write is `writePort`, which no read of an address sees. -/
theorem debugOutputWriteEmits : Obligations.DebugOutputWriteEmits := by
  intro s x v h hr ht
  have hread : s.memRead x = some 0 := memRead_port hr ht
  have hw := memWrite_port hr ht v
  obtain ⟨hregs, hcontrol⟩ := memWrite_frame hw
  obtain ⟨hm, _⟩ := resolve_some hr
  exact ⟨hread, _, hw, writePort_dbgValue_same hm ht v, rfl, (writePort_memRead ..).trans hread, writePort_memRead s _ v,
    hregs, hcontrol, fun i hi => writePort_dbgValue_other s v hi⟩

/-- Settles O28: by `memRead_answers` and `memWrite_answers`, which go through the targets. -/
theorem wellFormedAccessesAnswer : Obligations.WellFormedAccessesAnswer :=
  fun _ hc x v => ⟨memRead_answers hc x, memWrite_answers hc x v⟩

/-! ## The default configuration -/

/-- What an address inside the ROM mapping of the default configuration resolves to. -/
def romHit (image : List Byte) (a : Nat) : Hit :=
  { index := 0
    mapping := { base := 0x000, length := min (2 * image.length) addrSpace, target := .rom image }
    offset := a }

/-- What `0x100` resolves to in the default configuration where the ROM does not hide it. -/
def portHit : Hit := { index := 1, mapping := { base := 0x100, length := 1, target := .debugOutput }, offset := 0 }

theorem resolve_defaultMap_rom {image : List Byte} {a : Nat} (hs : a < addrSpace) (h : a < 2 * image.length) :
    resolve (defaultMap image) a = some (romHit image a) := by
  have hin : a < min (2 * image.length) addrSpace := lt_min h hs
  exact resolve_eq_some rfl ⟨Nat.zero_le a, by simpa [romHit] using hin⟩ rfl fun j _ hj _ => absurd hj (Nat.not_lt_zero j)

/-- Past the image only the port is mapped. -/
theorem resolve_defaultMap_past {image : List Byte} {a : Nat} (h : 2 * image.length ≤ a) :
    resolve (defaultMap image) a = if a = 0x100 then some portHit else none := by
  by_cases ha : a = 0x100
  · subst ha
    rw [if_pos rfl]
    refine resolve_eq_some rfl ⟨le_rfl, Nat.lt_succ_self _⟩ rfl fun j m hj hm => ?_
    obtain rfl : j = 0 := Nat.lt_one_iff.mp hj
    cases hm
    simp only
    omega
  · rw [if_neg ha, resolve_none_iff]
    simp only [defaultMap, List.forall_mem_cons, List.not_mem_nil, false_implies, implies_true, and_true]
    omega

theorem defaultConfiguration_wellFormed (image : List Byte) : (defaultConfiguration image).wellFormed = true := by
  simp [Configuration.wellFormed, defaultConfiguration, defaultMap, Mapping.wellFormed, Mapping.inSpace, Mapping.targetFits,
    addrSpace]

/-- Settles O30: inside the image an address resolves to the ROM at the offset of its own value, past it to the port or to nothing,
which both read as 0. -/
theorem defaultConfigurationReadsImage : Obligations.DefaultConfigurationReadsImage := by
  intro image s hs
  refine ⟨hs ▸ defaultConfiguration_wellFormed image, fun x => ?_⟩
  have hmap : s.config.map = defaultMap image := congrArg Configuration.map hs
  by_cases hx : x.toNat < 2 * image.length
  · have hr : resolve s.config.map x.toNat = some (romHit image x.toNat) := by
      rw [hmap]
      exact resolve_defaultMap_rom x.isLt hx
    have hlen : x.toNat < (imageNibbles image).length := by simpa using hx
    rw [memRead_rom hr rfl, romRead_eq_imageNibbles, List.getD_eq_getElem _ _ hlen]
    exact List.getElem?_eq_getElem hlen
  · rw [List.getD_eq_default _ _ (by simpa using hx)]
    have hr := resolve_defaultMap_past (Nat.le_of_not_lt hx)
    rw [← hmap] at hr
    split at hr
    · exact memRead_port hr rfl
    · exact memRead_unmapped hr

/-! ## An image that hides the port -/

/-- With more than 128 bytes of image no address resolves to the port (20_memory.md rule R67). -/
theorem not_port_of_long_image {image : List Byte} (hl : 128 < image.length) {x : Addr} {h : Hit}
    (hr : resolve (defaultMap image) x.toNat = some h) : h.mapping.target ≠ .debugOutput := by
  by_cases hx : x.toNat < 2 * image.length
  · rw [resolve_defaultMap_rom x.isLt hx] at hr
    cases hr
    simp [romHit]
  · rw [resolve_defaultMap_past (Nat.le_of_not_lt hx), if_neg (by omega)] at hr
    simp at hr

/-- Where no address resolves to a DebugOutput, no instruction appends a `DbgWrite`. -/
theorem exec_no_dbgWrite {i : Instr} {s t : State} (h : exec i s = .next t)
    (hno : ∀ (x : Addr) (hit : Hit), resolve s.config.map x.toNat = some hit → hit.mapping.target ≠ .debugOutput)
    (v : Nibble) : .dbgWrite v ∉ t.trace.drop s.trace.length := by
  rcases exec_trace h with ht | ⟨_, hit, hr, ⟨_, _, ht⟩ | ⟨hp, _⟩⟩ | ⟨_, ht⟩
  · simp [ht]
  · simp [ht]
  · exact absurd hp (hno _ _ hr)
  · simp [ht]

/-- Where no address resolves to a DebugOutput, no step appends a `DbgWrite`. -/
theorem step_no_dbgWrite {s t : State} (h : step s = .next t)
    (hno : ∀ (x : Addr) (hit : Hit), resolve s.config.map x.toNat = some hit → hit.mapping.target ≠ .debugOutput)
    (v : Nibble) : .dbgWrite v ∉ t.trace.drop s.trace.length := by
  obtain ⟨_, ⟨_, rfl⟩ | ⟨_, _, rfl⟩ | ⟨_, _, i, x, _, hi⟩⟩ := step_cases h
  · simp
  · simp
  · exact exec_no_dbgWrite (s := s.takeSample.setIar x) hi hno v

/-- Settles O31: `0x100` is inside the ROM exactly if the image has more than 128 bytes. -/
theorem longImageHidesPort : Obligations.LongImageHidesPort := by
  intro image s hs
  have hmap : s.config.map = defaultMap image := congrArg Configuration.map hs
  refine ⟨fun hl => ?_, fun hl v => ?_⟩
  · have hr : resolve s.config.map (0x100 : Addr).toNat = some (romHit image 0x100) := by
      rw [hmap]
      exact resolve_defaultMap_rom (by decide) (show 0x100 < 2 * image.length by omega)
    refine ⟨memRead_rom hr rfl, memWrite_rom hr rfl, fun t ht => step_no_dbgWrite ht fun x hit hx => ?_⟩
    rw [hmap] at hx
    exact not_port_of_long_image hl hx
  · have hr : resolve s.config.map (0x100 : Addr).toNat = some portHit := by
      rw [hmap]
      exact resolve_defaultMap_past (show 2 * image.length ≤ 0x100 by omega)
    obtain ⟨hm, _⟩ := resolve_some hr
    exact ⟨_, memWrite_port hr rfl v, rfl, writePort_dbgValue_same hm rfl v⟩

/-! ## Execution of what memory answers -/

/-- Settles O32: STR leaves `IAR` alone, so the fetch reads the cell just written. -/
theorem storedNibbleIsFetched : Obligations.StoredNibbleIsFetched := by
  intro s h init hc hr ht hiar
  have hl := ram_in_cells hc hr ht
  refine ⟨s.writeRam s.addr s.a, _, exec_str_iff.mpr (memWrite_ram hr ht hl s.a), fetch_some ?_⟩
  rw [writeRam_iar, hiar]
  exact writeRam_memRead_same hr ht hl s.a

/-- An address that resolves to a DebugOutput or to nothing reads as 0. -/
theorem memRead_off_map {s : State} {x : Addr}
    (h : ∀ hit, resolve s.config.map x.toNat = some hit → hit.mapping.target = .debugOutput) : s.memRead x = some 0 := by
  cases hr : resolve s.config.map x.toNat with
  | none => exact memRead_unmapped hr
  | some hit => exact memRead_port hr (h hit hr)

/-- One nibble at `IAR` is enough for an instruction without operands. -/
theorem nibblesAtIar_singleton {s : State} {n : Nibble} (h : s.memRead s.iar = some n) : s.NibblesAtIar [n] := by
  intro k hk
  obtain rfl : k = 0 := by simpa using hk
  simpa using h

/-- The exception has the effect rule R161 of 60_exceptions.md names, with the address before `IAR`. -/
theorem raiseIllegal_effect (s : State) (op : Nibble) : IllegalEffect op (s.iar - 1) s (s.raiseIllegal op) := by
  simp [IllegalEffect, KeepsRegisters, KeepsRegs]

/-- Settles O38: the nibble read off the map is 0, the opcode of an illegal instruction. -/
theorem executionOffTheMapHalts : Obligations.ExecutionOffTheMapHalts := by
  intro s hcycle hoff
  have hready : s.ReadyFor .illegal0 := ⟨hcycle, nibblesAtIar_singleton (memRead_off_map hoff)⟩
  have hiar : (s.fetched .illegal0).iar = s.iar + 1 := rfl
  have heffect := raiseIllegal_effect (s.fetched .illegal0) 0
  rw [hiar, BitVec.add_sub_cancel] at heffect
  exact ⟨_, (step_of_readyFor hready).trans (exec_illegal (by decide) _), hiar, heffect⟩

end Sys2Proof.Machine

/-!
The family of the encoding (30_encoding.md): the decoder and the encoder are inverse, the opcode fixes the length, the operand nibble
of MOV and NAND, and the illegal opcodes: what they do, and that nothing else halts the machine.
-/

namespace Sys2Proof

/-! ## What a plan reads -/

theorem fieldP_eq (o : Nibble) : fieldP o = BitVec.ofNat 2 (o.toNat / 4) := by
  apply BitVec.eq_of_toNat_eq
  simp [fieldP, Nat.shiftRight_eq_div_pow]

theorem fieldQ_eq (o : Nibble) : fieldQ o = BitVec.ofNat 2 (o.toNat % 4) := by
  apply BitVec.eq_of_toNat_eq
  simp [fieldQ]

/-- The two fields of an operand nibble are all of it. -/
theorem operandR_regP_regQ (o : Nibble) : operandR (regP o) (regQ o) = o := by
  revert o
  decide

/-- `p.Reads k pre`: the plan asks for exactly `k` more nibbles, and `pre` followed by them is the encoding of the instruction it then
gives. -/
inductive Plan.Reads : Plan → Nat → List Nibble → Prop
  | done {i : Instr} {pre : List Nibble} (h : encode i = pre) : Reads (.done i) 0 pre
  | need {next : Nibble → Plan} {k : Nat} {pre : List Nibble} (h : ∀ n, Reads (next n) k (pre ++ [n])) :
      Reads (.need next) (k + 1) pre

/-- Each row of the opcode map asks for the operands of the instruction that has the row's opcode (rules R91, R92). -/
theorem plan_reads : ∀ op : Nibble, (plan op).Reads (operandCount op) [op]
  | ⟨0x0⟩ => .done rfl
  | ⟨0x1⟩ => .need fun _ => .done rfl
  | ⟨0x2⟩ => .done rfl
  | ⟨0x3⟩ => .done rfl
  | ⟨0x4⟩ => .done rfl
  | ⟨0x5⟩ => .done rfl
  | ⟨0x6⟩ => .need fun o => .done (congrArg ([0x6, ·]) (operandR_regP_regQ o))
  | ⟨0x7⟩ => .done rfl
  | ⟨0x8⟩ => .need fun _ => .need fun _ => .need fun _ => .done rfl
  | ⟨0x9⟩ => .done rfl
  | ⟨0xA⟩ => .need fun _ => .need fun _ => .need fun _ => .done rfl
  | ⟨0xB⟩ => .done rfl
  | ⟨0xC⟩ => .done rfl
  | ⟨0xD⟩ => .need fun o => .done (congrArg ([0xD, ·]) (operandR_regP_regQ o))
  | ⟨0xE⟩ => .done rfl
  | ⟨0xF⟩ => .done rfl
  | ⟨⟨_ + 16, h⟩⟩ => absurd h (by omega)

/-- On enough nibbles a plan gives the instruction that `pre` and the nibbles it takes encode, and leaves the rest. -/
theorem Plan.Reads.decodePlan_ok {p : Plan} {k : Nat} {pre ns : List Nibble} (h : p.Reads k pre) (hk : k ≤ ns.length) :
    ∃ i, decodePlan p ns = .ok i (ns.drop k) ∧ encode i = pre ++ ns.take k := by
  induction h generalizing ns with
  | done h => exact ⟨_, rfl, by simp [h]⟩
  | need h ih =>
    cases ns with
    | nil => simp at hk
    | cons n ns =>
      obtain ⟨i, hi, henc⟩ := ih n (Nat.le_of_succ_le_succ hk)
      exact ⟨i, hi, by simpa using henc⟩

/-- On fewer nibbles than it asks for a plan rejects the list. -/
theorem Plan.Reads.decodePlan_reject {p : Plan} {k : Nat} {pre ns : List Nibble} (h : p.Reads k pre) (hk : ns.length < k) :
    decodePlan p ns = .reject .operandMissing := by
  induction h generalizing ns with
  | done h => simp at hk
  | need h ih =>
    cases ns with
    | nil => rfl
    | cons n ns => exact ih n (Nat.lt_of_succ_lt_succ hk)

/-- Nibbles after those that a plan takes are left over. -/
theorem decodePlan_append {p : Plan} {ns rest : List Nibble} {i : Instr} (h : decodePlan p ns = .ok i rest)
    (more : List Nibble) : decodePlan p (ns ++ more) = .ok i (rest ++ more) := by
  induction p generalizing ns with
  | done j =>
    obtain ⟨rfl, rfl⟩ : j = i ∧ ns = rest := by simpa [decodePlan] using h
    rfl
  | need next ih =>
    cases ns with
    | nil => simp [decodePlan] at h
    | cons n ns => exact ih n h

/-! ## Decoding and encoding -/

/-- An opcode with enough nibbles after it decodes to an instruction that the nibbles taken encode. -/
theorem decode_ok {op : Nibble} {ns : List Nibble} (h : operandCount op ≤ ns.length) :
    ∃ i, decode (op :: ns) = .ok i (ns.drop (operandCount op)) ∧ encode i = op :: ns.take (operandCount op) :=
  (plan_reads op).decodePlan_ok h

/-- An opcode with too few nibbles after it is rejected. -/
theorem decode_reject {op : Nibble} {ns : List Nibble} (h : ns.length < operandCount op) :
    decode (op :: ns) = .reject .operandMissing :=
  (plan_reads op).decodePlan_reject h

/-- The decoder reads an encoding back, whatever follows it. -/
theorem decode_encode_append (i : Instr) (rest : List Nibble) : decode (encode i ++ rest) = .ok i rest :=
  decodePlan_append (Machine.decodePlan_encode i) rest

/-- What was decoded is the encoding of the instruction, followed by what was left over. -/
theorem eq_encode_append_of_decode {ns : List Nibble} {i : Instr} {rest : List Nibble} (h : decode ns = .ok i rest) :
    ns = encode i ++ rest := by
  cases ns with
  | nil => simp [decode] at h
  | cons op ns =>
    rcases Nat.lt_or_ge ns.length (operandCount op) with hlt | hge
    · simp [decode_reject hlt] at h
    · obtain ⟨j, hj, henc⟩ := decode_ok hge
      obtain ⟨rfl, rfl⟩ : j = i ∧ ns.drop (operandCount op) = rest := by simpa [hj] using h
      rw [henc, List.cons_append, List.take_append_drop]

/-- Settles O1: the decoder reads every encoding back, and each row of the opcode map gives the instruction its nibbles encode. -/
theorem decodeAgreesWithEncode : Obligations.DecodeAgreesWithEncode := by
  refine fun ns i rest => ⟨eq_encode_append_of_decode, ?_⟩
  rintro rfl
  exact decode_encode_append i rest

/-- Settles O2: the opcode is the first nibble of the encoding, and the length is the number of nibbles taken. -/
theorem opcodeFixesLength : Obligations.OpcodeFixesLength := by
  refine fun op ns => ⟨fun h => ?_, decode_reject, ?_⟩
  · obtain ⟨i, hi, henc⟩ := decode_ok h
    have hop : i.opcode = op := (List.cons.inj henc).1
    refine ⟨i, hi, hop, ?_⟩
    rw [← Machine.encode_length, henc, List.length_cons, List.length_take_of_le h, Nat.add_comm]
  · revert op
    decide

/-- Settles O3: each word is a closed list that the decoder runs on. -/
theorem specWordsDecode : Obligations.SpecWordsDecode := by
  unfold Obligations.SpecWordsDecode
  decide

/-- Settles O4: the decoder takes the registers of the two fields, and the fields are quotient and remainder by 4. -/
theorem operandNibbleSplitsIntoRegisters : Obligations.OperandNibbleSplitsIntoRegisters := by
  refine ⟨fun o rest => ?_, rfl, rfl, rfl, rfl⟩
  rw [← fieldP_eq, ← fieldQ_eq]
  exact ⟨rfl, rfl⟩

end Sys2Proof

namespace Sys2Proof.Machine

/-! ## The illegal opcodes -/

/-- An illegal opcode is the whole encoding of its instruction (rule R93). -/
theorem encode_illegal {i : Instr} (hi : i.opcode ∈ illegalOpcodes) : encode i = [i.opcode] := by
  cases i with
  | illegal0 | illegal7 | illegalB | illegalC | illegalE | illegalF => rfl
  | _ => simp [Instr.opcode, illegalOpcodes] at hi

theorem fetched_iar_of_illegal {i : Instr} (hi : i.opcode ∈ illegalOpcodes) (s : State) : (s.fetched i).iar = s.iar + 1 := by
  have hlength : i.length = 1 := by rw [← encode_length, encode_illegal hi, List.length_singleton]
  rw [fetched_iar, hlength]
  rfl

/-- A step that fetches an illegal opcode takes the exception, with the address the opcode was fetched from. -/
theorem step_illegal {s : State} {i : Instr} (hi : i.opcode ∈ illegalOpcodes) (h : s.ReadyFor i) :
    ∃ t, step s = .next t ∧ t.iar = s.iar + 1 ∧ IllegalEffect i.opcode s.iar (s.fetched i) t := by
  have hiar := fetched_iar_of_illegal hi s
  have heffect := raiseIllegal_effect (s.fetched i) i.opcode
  rw [hiar, BitVec.add_sub_cancel] at heffect
  exact ⟨_, (step_of_readyFor h).trans (exec_illegal hi _), hiar, heffect⟩

/-- Settles O21: each of the six is its own opcode, and the exception has the effect of rule R161. -/
theorem illegalOpcodeHalts : Obligations.IllegalOpcodeHalts := by
  intro i hmem
  have hi : i.opcode ∈ illegalOpcodes := by
    revert i
    decide
  exact ⟨encode_illegal hi, hi, fun s => ⟨_, exec_illegal hi s, raiseIllegal_effect s i.opcode⟩, fun _ => step_illegal hi⟩

/-! ## The instruction at `IAR` -/

theorem operandCount_le_three (op : Nibble) : operandCount op ≤ 3 := by
  revert op
  decide

theorem nibblesAtIar_of_append {s : State} {ns more : List Nibble} (h : s.NibblesAtIar (ns ++ more)) : s.NibblesAtIar ns := by
  intro k hk
  rw [h k (by simp only [List.length_append]; omega), List.getElem_append_left hk]

/-- In a well-formed configuration nibbles stand at `IAR`, as many as wanted. -/
theorem exists_nibblesAtIar {s : State} (hc : s.config.wellFormed = true) (k : Nat) :
    ∃ ns : List Nibble, ns.length = k ∧ s.NibblesAtIar ns := by
  choose read hread using memRead_answers hc
  refine ⟨(List.range k).map fun j => read (s.iar + BitVec.ofNat 12 j), by simp, fun j _ => ?_⟩
  simp [hread]

/-- A machine that takes a cycle is ready for some instruction: four nibbles are enough for every opcode (rule R99). -/
theorem readyFor_of_takesCycle {s : State} (h : s.TakesCycle) : ∃ i, s.ReadyFor i := by
  obtain ⟨ns, hlen, hns⟩ := exists_nibblesAtIar h.1 4
  cases ns with
  | nil => simp at hlen
  | cons op ns =>
    have hcount : operandCount op ≤ ns.length := (operandCount_le_three op).trans_eq (Nat.succ.inj hlen).symm
    obtain ⟨i, hi, _⟩ := decode_ok hcount
    rw [eq_encode_append_of_decode hi] at hns
    exact ⟨i, h, nibblesAtIar_of_append hns⟩

/-- The opcode of the instruction a machine is ready for stands at `IAR`. -/
theorem memRead_iar_of_readyFor {s : State} {i : Instr} (h : s.ReadyFor i) : s.memRead s.iar = some i.opcode := by
  simpa [encode] using h.2 0 (Nat.succ_pos _)

/-- Only an illegal opcode changes the run state. -/
theorem exec_keeps_run {i : Instr} {s t : State} (hi : i.opcode ∉ illegalOpcodes) (h : exec i s = .next t) : t.run = s.run := by
  rcases exec_cases h with ⟨r, v, rfl⟩ | ⟨x, rfl⟩ | ⟨_, x, rfl⟩ | ⟨_, hw⟩ | ⟨hop, _⟩
  · simp
  · simp
  · simp
  · obtain ⟨_, hrun, _⟩ := memWrite_frame hw
    exact hrun
  · exact absurd hop hi

/-- Settles O37: the step runs the instruction whose opcode stands at `IAR`; it takes the exception if that opcode is illegal, and
leaves the machine running if it is not. -/
theorem haltsOnlyOnIllegalOpcode : Obligations.HaltsOnlyOnIllegalOpcode := by
  intro s t hcycle hstep
  obtain ⟨i, hready⟩ := readyFor_of_takesCycle hcycle
  have hread := memRead_iar_of_readyFor hready
  by_cases hi : i.opcode ∈ illegalOpcodes
  · obtain ⟨u, hu, _, hrun, hfault, _⟩ := step_illegal hi hready
    obtain rfl : u = t := by simpa [hu] using hstep
    exact ⟨fun _ => ⟨_, hi, hread, hfault⟩, fun _ _ _ => hrun, .inl hrun⟩
  · have hrun : t.run = .running := by
      rw [exec_keeps_run hi ((step_of_readyFor hready).symm.trans hstep), fetched_run]
      exact hcycle.2.1
    refine ⟨fun hhalted => by simp [hrun] at hhalted, fun op hop hat => absurd hop ?_, .inr hrun⟩
    obtain rfl : i.opcode = op := by simpa [hread] using hat
    exact hi

end Sys2Proof.Machine

/-!
The family of the instruction cycle (40_instruction_cycle.md): what one fetch does, and the one instruction that a cycle runs.
-/

namespace Sys2Proof.Machine

/-- The fetches give one answer, so a machine is ready for at most one instruction. -/
theorem State.ReadyFor.unique {s : State} {i j : Instr} (hi : s.ReadyFor i) (hj : s.ReadyFor j) : i = j := by
  have hfetch : some (i, s.fetched i) = some (j, s.fetched j) :=
    (fetchInstr_of_readyFor hi).symm.trans (fetchInstr_of_readyFor hj)
  exact congrArg Prod.fst (Option.some.inj hfetch)

/-- Settles O6: four nibbles at `IAR` are enough for some instruction, and the fetches determine which. -/
theorem everyCycleRunsOneInstruction : Obligations.EveryCycleRunsOneInstruction := by
  intro s hcycle
  obtain ⟨i, hready⟩ := readyFor_of_takesCycle hcycle
  exact ⟨i, ⟨hready, step_of_readyFor hready⟩, fun j hj => hj.1.unique hready⟩

/-- Settles O5: the nibbles decoded begin with the encoding of the instruction, so the machine is ready for it. -/
theorem stepRunsDecodedInstruction : Obligations.StepRunsDecodedInstruction := by
  intro s ns i rest hcycle hns hdecode
  rw [eq_encode_append_of_decode hdecode] at hns
  exact step_of_readyFor ⟨hcycle, nibblesAtIar_of_append hns⟩

/-- Settles O7: the read at `IAR` answers, and the fetch then only writes `IAR`. -/
theorem fetchReadsThenAdvances : Obligations.FetchReadsThenAdvances := by
  intro s hc
  obtain ⟨n, hn⟩ := memRead_answers hc s.iar
  have hiar : (s.iar + 1).toNat = (s.iar.toNat + 1) % 4096 := BitVec.toNat_add s.iar 1
  exact ⟨n, s.setIar (s.iar + 1), hn, fetch_some hn, hiar, keepsAllButIar_setIar s (s.iar + 1)⟩

end Sys2Proof.Machine

/-!
The family of load immediate (41_load_immediate.md): an effect on the general registers alone, on `exec` and on a step.
-/

namespace Sys2Proof.Machine

/-- A step takes over an effect `P` of `exec` on the state after the fetches; where the instruction writes at most general registers,
`IAR` stays past its nibbles. -/
theorem step_of_exec_keepsAllBut {s : State} {i : Instr} {written : List Reg} {P : State → Prop} (h : s.ReadyFor i)
    (hexec : ∃ t, exec i (s.fetched i) = .next t ∧ P t ∧ KeepsAllBut written (s.fetched i) t) :
    ∃ t, step s = .next t ∧ P t ∧ t.iar = s.iar + BitVec.ofNat 12 i.length ∧ KeepsAllBut written (s.fetched i) t := by
  obtain ⟨t, ht, hP, ⟨hregs, hiar, haddr⟩, hrest⟩ := hexec
  exact ⟨t, (step_of_readyFor h).trans ht, hP, hiar, ⟨hregs, hiar, haddr⟩, hrest⟩

/-- LDI answers in every state, with the immediate in `A` and nothing else changed (rule R120). -/
theorem exec_ldi_effect (n : Nibble) (s : State) : ∃ t, exec (.ldi n) s = .next t ∧ t.a = n ∧ KeepsAllBut [.a] s t :=
  ⟨s.writeReg .a n, exec_ldi n s, readReg_writeReg_same s .a n, keepsAllBut_writeReg s .a n⟩

/-- Settles O10: LDI writes `A` alone, and a step runs it on the state after its two nibbles were fetched. -/
theorem ldiLoadsImmediate : Obligations.LdiLoadsImmediate := fun n =>
  ⟨rfl, exec_ldi_effect n, fun s h => step_of_exec_keepsAllBut h (exec_ldi_effect n (s.fetched (.ldi n)))⟩

end Sys2Proof.Machine

/-!
The family of load, store and the address register (42_load_store_address.md): a read and a write at `ADDR`, and `ADDR` limb by limb.
-/

namespace Sys2Proof.Machine

/-! ## LOD -/

/-- LOD answers in a well-formed configuration, with what memory answers at `ADDR` in `A` and nothing else changed (rule R125). -/
theorem exec_lod_effect {s : State} (hc : s.config.wellFormed = true) :
    ∃ t, exec .lod s = .next t ∧ s.memRead s.addr = some t.a ∧ KeepsAllBut [.a] s t := by
  obtain ⟨v, hv⟩ := memRead_answers hc s.addr
  exact ⟨s.writeReg .a v, exec_lod_iff.mpr ⟨v, hv, rfl⟩, hv, keepsAllBut_writeReg s .a v⟩

/-- Settles O11: LOD writes `A` alone, and the fetch changes neither memory nor `ADDR`. -/
theorem lodLoadsFromAddr : Obligations.LodLoadsFromAddr := by
  refine ⟨rfl, fun s hc => exec_lod_effect hc, fun s h => step_of_exec_keepsAllBut h ?_⟩
  simpa using exec_lod_effect (s := s.fetched .lod) h.1.1

/-! ## STR -/

/-- A write of `A` at `ADDR` has the effect of STR: the laws of the write, target by target. -/
theorem strEffect_of_memWrite {s t : State} (hw : s.memWrite s.addr s.a = some t) : StrEffect s t := by
  obtain ⟨hregs, hcontrol⟩ := memWrite_frame hw
  refine ⟨hregs, hcontrol, ?_⟩
  rcases memWrite_cases hw with ⟨hr, rfl⟩ | ⟨h, hr, ⟨buffer, ht, rfl⟩ | ⟨init, ht, hl, rfl⟩ | ⟨ht, rfl⟩⟩
  · simp only [hr]
    exact keepsStorage_of_fields rfl rfl rfl rfl
  · simp only [hr, ht]
    exact ⟨rfl, emit_memRead s _, emit_ramCell s _, emit_dbgValue s _⟩
  · simp only [hr, ht]
    exact ⟨writeRam_memRead_same hr ht hl s.a, ramCell_writeRam_same hr ht hl s.a,
      fun x hx => writeRam_memRead_other s s.a hx, fun i off hne => ramCell_writeRam_other hr s.a hne,
      writeRam_dbgValue s _ _, rfl⟩
  · simp only [hr, ht]
    obtain ⟨hm, _⟩ := resolve_some hr
    exact ⟨writePort_dbgValue_same hm ht s.a, rfl, fun i hi => writePort_dbgValue_other s s.a hi,
      writePort_memRead s _ _, writePort_ramCell s _ _⟩

/-- STR answers in a well-formed configuration, with the write of `A` at `ADDR` (rule R126). -/
theorem exec_str_effect {s : State} (hc : s.config.wellFormed = true) : ∃ t, exec .str s = .next t ∧ StrEffect s t := by
  obtain ⟨t, ht⟩ := memWrite_answers hc s.addr s.a
  exact ⟨t, exec_str_iff.mpr ht, strEffect_of_memWrite ht⟩

/-- Settles O12: STR is the write at `ADDR`, which leaves `IAR` past the one nibble fetched. -/
theorem strStoresByTarget : Obligations.StrStoresByTarget := by
  refine ⟨rfl, fun s hc => exec_str_effect hc, fun s h => ?_⟩
  obtain ⟨t, ht, ⟨hregs, hiar, haddr⟩, hrest⟩ := exec_str_effect (s := s.fetched .str) h.1.1
  exact ⟨t, (step_of_readyFor h).trans ht, hiar, ⟨hregs, hiar, haddr⟩, hrest⟩

/-! ## SAR and SAP -/

/-- `ADDR` holds the limbs `h`, `m`, `l`, and the rest of the state is as in `s`. -/
def SetsLimbs (h m l : Nibble) (s t : State) : Prop :=
  limbHigh t.addr = h ∧ limbMid t.addr = m ∧ limbLow t.addr = l ∧ KeepsAllButAddr s t

theorem setsLimbs_setAddr (s : State) (h m l : Nibble) : SetsLimbs h m l s (s.setAddr (ofLimbs h m l)) := by
  obtain ⟨_, hhigh, hmid, hlow⟩ := limbsMakeTheAddress.1 h m l
  exact ⟨hhigh, hmid, hlow, keepsAllButAddr_setAddr s _⟩

/-- A step takes over the limbs that `exec` sets on the state after the fetches; `IAR` stays past the nibbles fetched. -/
theorem step_of_exec_setsLimbs {s t : State} {i : Instr} {h m l : Nibble} (hready : s.ReadyFor i)
    (hexec : exec i (s.fetched i) = .next t) (hlimbs : SetsLimbs h m l (s.fetched i) t) :
    ∃ t, step s = .next t ∧ limbHigh t.addr = h ∧ limbMid t.addr = m ∧ limbLow t.addr = l ∧
      t.iar = s.iar + BitVec.ofNat 12 i.length ∧ KeepsAllButAddr (s.fetched i) t := by
  obtain ⟨hhigh, hmid, hlow, hregs, hiar, hrest⟩ := hlimbs
  exact ⟨t, (step_of_readyFor hready).trans hexec, hhigh, hmid, hlow, hiar, hregs, hiar, hrest⟩

/-- Settles O13: SAR sets `ADDR` to its own high limb, `A` and `B`. -/
theorem sarSetsMidAndLow : Obligations.SarSetsMidAndLow :=
  ⟨rfl, fun s => ⟨_, exec_sar s, setsLimbs_setAddr s _ _ _⟩,
    fun s h => step_of_exec_setsLimbs h (exec_sar _) (setsLimbs_setAddr (s.fetched .sar) _ _ _)⟩

/-- Settles O14: SAP sets `ADDR` to `A` and its own mid and low limbs. -/
theorem sapSetsHigh : Obligations.SapSetsHigh :=
  ⟨rfl, fun s => ⟨_, exec_sap s, setsLimbs_setAddr s _ _ _⟩,
    fun s h => step_of_exec_setsLimbs h (exec_sap _) (setsLimbs_setAddr (s.fetched .sap) _ _ _)⟩

end Sys2Proof.Machine

/-!
The family of the register move (43_register_move.md): a copy from the register of the high field to that of the low field.
-/

namespace Sys2Proof.Machine

/-- The operand nibble of format R as a number: the two register indices are its digits to base 4 (rule R91). -/
theorem operandR_eq_ofNat (p q : Reg) :
    operandR p q = BitVec.ofNat 4 (4 * (indexOfReg p).toNat + (indexOfReg q).toNat) := by
  cases p <;> cases q <;> rfl

/-- An instruction that may write only `r`, and leaves `r` its old value, changes no general register. -/
theorem KeepsAllBut.keepsRegs_nil {s t : State} {r : Reg} (h : KeepsAllBut [r] s t) (hr : t.readReg r = s.readReg r) :
    KeepsRegs [] s t := by
  obtain ⟨⟨hregs, _, _⟩, _, _⟩ := h
  intro x _
  by_cases hx : x = r
  · rw [hx, hr]
  · exact hregs x (List.mem_singleton.not.mpr hx)

/-- MOV answers in every state, with the old value of the source in the destination and nothing else changed (rule R135). -/
theorem exec_mov_effect (p q : Reg) (s : State) :
    ∃ t, exec (.mov p q) s = .next t ∧ t.readReg q = s.readReg p ∧ KeepsAllBut [q] s t :=
  ⟨s.writeReg q (s.readReg p), exec_mov p q s, readReg_writeReg_same s q _, keepsAllBut_writeReg s q _⟩

/-- Settles O15: MOV writes its destination alone; where that is the source, it gets back its own value. -/
theorem movCopiesHighFieldToLowField : Obligations.MovCopiesHighFieldToLowField := by
  refine fun p q => ⟨congrArg ([0x6, ·]) (operandR_eq_ofNat p q), fun s => ?_, fun s h => ?_⟩
  · obtain ⟨t, ht, hq, hkeeps⟩ := exec_mov_effect p q s
    exact ⟨t, ht, hq, hkeeps, fun hpq => hkeeps.keepsRegs_nil (hpq ▸ hq)⟩
  · obtain ⟨t, ht, hq, hiar, hkeeps⟩ := step_of_exec_keepsAllBut h (exec_mov_effect p q (s.fetched (.mov p q)))
    have hself (hpq : p = q) : KeepsRegs [] (s.fetched (.mov p q)) t := hkeeps.keepsRegs_nil (hpq ▸ hq)
    simp only [KeepsRegs, fetched_readReg] at hq hself
    exact ⟨t, ht, hq, hiar, hkeeps, hself⟩

end Sys2Proof.Machine

/-!
The family of the jumps (44_jumps.md): a write of `IAR` from three limbs, taken in every case or exactly where `A` is 0.
-/

namespace Sys2Proof.Machine

/-- A jump to three limbs sets `IAR` to the number they make and changes nothing else (rules R96, R140). -/
theorem setIar_ofLimbs_effect (s : State) (h m l : Nibble) :
    (s.setIar (ofLimbs h m l)).iar.toNat = h.toNat * 256 + m.toNat * 16 + l.toNat ∧
      KeepsAllButIar s (s.setIar (ofLimbs h m l)) :=
  ⟨toNat_ofLimbs h m l, keepsAllButIar_setIar s _⟩

/-- JZ answers in every state, with the jump where `A` is 0 and with the state itself where it is not (rule R142). -/
theorem exec_jz_effect (h m l : Nibble) (s : State) :
    ∃ t, exec (.jz h m l) s = .next t ∧
      t.iar.toNat = (if s.a = 0 then h.toNat * 256 + m.toNat * 16 + l.toNat else s.iar.toNat) ∧ KeepsAllButIar s t := by
  refine ⟨_, exec_jz h m l s, ?_⟩
  by_cases hz : s.a = 0
  · simp only [if_pos hz]
    exact setIar_ofLimbs_effect s h m l
  · simp only [if_neg hz, true_and]
    exact keepsAllButIar_setIar s s.iar

/-- Settles O18: JMP is the jump to its three operand nibbles, on `exec` and on the state after their fetches. -/
theorem jmpSetsIar : Obligations.JmpSetsIar := fun h m l =>
  ⟨rfl, fun s => ⟨_, exec_jmp h m l s, setIar_ofLimbs_effect s h m l⟩,
    fun _ hready => ⟨_, (step_of_readyFor hready).trans (exec_jmp h m l _), setIar_ofLimbs_effect _ h m l⟩⟩

/-- Settles O19: RJP is the jump to `D`, `A`, `B`, which the fetch leaves as they are. -/
theorem rjpSetsIarFromRegisters : Obligations.RjpSetsIarFromRegisters :=
  ⟨rfl, fun s => ⟨_, exec_rjp s, setIar_ofLimbs_effect s _ _ _⟩,
    fun s hready => ⟨_, (step_of_readyFor hready).trans (exec_rjp _), setIar_ofLimbs_effect (s.fetched .rjp) s.d s.a s.b⟩⟩

/-- Settles O20: JZ tests the `A` that the fetches leave as it is; not taken, it leaves `IAR` where its four fetches put it. -/
theorem jzBranchesOnZeroA : Obligations.JzBranchesOnZeroA := by
  refine fun h m l => ⟨rfl, exec_jz_effect h m l, fun s hready => ?_⟩
  have hiar : (s.fetched (.jz h m l)).iar.toNat = (s.iar.toNat + 4) % 4096 := BitVec.toNat_add s.iar 4
  rw [step_of_readyFor hready, ← hiar]
  exact exec_jz_effect h m l (s.fetched (.jz h m l))

end Sys2Proof.Machine

/-!
The family of NAND (45_nand.md): the complement of the AND, bit by bit and as a number, and two NANDs in a row.
-/

namespace Sys2Proof.Machine

/-- A bit of the NAND depends on the same bit of the two operands and is 0 exactly if both are 1 (rule R151). -/
theorem getLsbD_nandNibble (u v : Nibble) {k : Nat} (hk : k < 4) :
    (nandNibble u v).getLsbD k = !(u.getLsbD k && v.getLsbD k) := by
  simp [nandNibble, hk]

/-- The complement is taken within the nibble: it is the difference from 15 (rule R151). -/
theorem toNat_nandNibble (u v : Nibble) : (nandNibble u v).toNat = 15 - (u &&& v).toNat :=
  BitVec.toNat_not

theorem nandNibble_self (v : Nibble) : nandNibble v v = ~~~v :=
  congrArg (~~~·) BitVec.and_self

theorem nandNibble_nandNibble_self (u v : Nibble) : nandNibble (nandNibble u v) (nandNibble u v) = u &&& v := by
  rw [nandNibble_self, nandNibble, BitVec.not_not]

/-- What two instructions in turn leave alone: the frames compose where both write within the same registers. -/
theorem KeepsAllBut.trans {written : List Reg} {s t t' : State} (h : KeepsAllBut written s t)
    (h' : KeepsAllBut written t t') : KeepsAllBut written s t' := by
  obtain ⟨⟨hregs, hiar, haddr⟩, ⟨hrun, hfault, hconfig, hstop⟩, hmem, hram, hdbg, htrace⟩ := h
  obtain ⟨⟨hregs', hiar', haddr'⟩, ⟨hrun', hfault', hconfig', hstop'⟩, hmem', hram', hdbg', htrace'⟩ := h'
  exact ⟨⟨fun r hr => (hregs' r hr).trans (hregs r hr), hiar'.trans hiar, haddr'.trans haddr⟩,
    ⟨hrun'.trans hrun, hfault'.trans hfault, hconfig'.trans hconfig, hstop'.trans hstop⟩,
    fun x => (hmem' x).trans (hmem x), fun i off => (hram' i off).trans (hram i off),
    fun i => (hdbg' i).trans (hdbg i), htrace'.trans htrace⟩

/-- NAND answers in every state, with the NAND of the two old values in its first operand and nothing else changed (rule R150,
decision D4). -/
theorem exec_nand_effect (p q : Reg) (s : State) :
    ∃ t, exec (.nand p q) s = .next t ∧ t.readReg p = nandNibble (s.readReg p) (s.readReg q) ∧ KeepsAllBut [p] s t :=
  ⟨_, exec_nand p q s, readReg_writeReg_same s p _, keepsAllBut_writeReg s p _⟩

/-- Settles O16: NAND writes its first operand alone, on `exec` and on the state after the two fetches; the bits and the number are
those of the NAND of two nibbles. -/
theorem nandWritesComplementOfAnd : Obligations.NandWritesComplementOfAnd := by
  refine fun p q => ⟨congrArg ([0xD, ·]) (operandR_eq_ofNat p q), fun s => ?_, fun s h => ?_⟩
  · obtain ⟨t, ht, hp, hkeeps⟩ := exec_nand_effect p q s
    exact ⟨t, ht, fun k hk => hp ▸ getLsbD_nandNibble _ _ hk, hp ▸ toNat_nandNibble _ _, hkeeps⟩
  · obtain ⟨t, ht, hp, hiar, hkeeps⟩ := step_of_exec_keepsAllBut h (exec_nand_effect p q (s.fetched (.nand p q)))
    simp only [fetched_readReg] at hp
    exact ⟨t, ht, hp ▸ toNat_nandNibble _ _, hiar, hkeeps⟩

/-- Settles O17: NAND of a register with itself is the complement, so after a NAND it leaves the AND; both NANDs write only that
register. -/
theorem nandPairIsAnd : Obligations.NandPairIsAnd := by
  refine ⟨fun r u s _ => ?_, fun r s => ?_⟩
  · obtain ⟨t, ht, hr, hkeeps⟩ := exec_nand_effect r u s
    obtain ⟨t', ht', hr', hkeeps'⟩ := exec_nand_effect r r t
    rw [hr, nandNibble_nandNibble_self] at hr'
    exact ⟨t, t', ht, ht', hr', hkeeps.trans hkeeps'⟩
  · rw [← nandNibble_self]
    exact exec_nand_effect r r s

end Sys2Proof.Machine

/-!
The family of the exceptions (60_exceptions.md): a well-formed machine is never stuck.
-/

namespace Sys2Proof.Machine

/-- Settles O36: outside `running` the step answers the state itself, on a sampled stop the stopped state, and in a cycle what the
instruction at `IAR` answers after its fetches. -/
theorem wellFormedMachineAlwaysSteps : Obligations.WellFormedMachineAlwaysSteps := by
  intro s hc
  by_cases hrun : s.run = .running
  · cases hstop : s.stopRequested with
    | true => exact ⟨s.stop, step_of_stopRequested hc hrun hstop⟩
    | false =>
      obtain ⟨i, hready⟩ := readyFor_of_takesCycle ⟨hc, hrun, hstop⟩
      rw [step_of_readyFor hready]
      exact exec_answers (s := s.fetched i) hc i
  · exact ⟨s, step_of_not_running hc hrun⟩

end Sys2Proof.Machine

/-!
The family of reset and hazards (70_reset_and_hazards.md): the first step with nothing mapped at address 0, and a jump to itself.
-/

namespace Sys2Proof.Machine

/-! ## The first step after reset -/

/-- The first step after reset takes a cycle: the machine is running, and reset leaves no sample of `stop_req` waiting. -/
theorem resetWith_takesCycle {c : Configuration} (hc : c.wellFormed = true) : (State.resetWith c).TakesCycle :=
  ⟨hc, rfl, Bool.and_false _⟩

/-- Settles O39: the first step after reset executes at address 0, which is off the map. -/
theorem emptyAddressZeroHaltsAtOnce : Obligations.EmptyAddressZeroHaltsAtOnce := by
  intro c hc hempty
  have hoff (hit : Hit) (hr : resolve c.map 0 = some hit) : hit.mapping.target = .debugOutput := by
    simp [hempty] at hr
  obtain ⟨t, ht, hiar, hrun, hfault, htrace, _⟩ := executionOffTheMapHalts _ (resetWith_takesCycle hc) hoff
  exact ⟨t, ht, hrun, hfault, htrace, hiar⟩

/-! ## A jump to itself -/

/-- Without the stop input no sample is taken. -/
theorem takeSample_of_no_stop {s : State} (h : s.config.hasStop = false) : s.takeSample = s := by
  simp [State.takeSample, h]

/-- `IAR` written after the fetches of an instruction hides that they advanced it. -/
theorem fetched_setIar (s : State) (i : Instr) (x : Addr) : (s.fetched i).setIar x = s.takeSample.setIar x := rfl

/-- Settles O47: JMP writes the old `IAR` over the fetched one, and without the stop input nothing else was touched. -/
theorem jmpToItselfChangesNothing : Obligations.JmpToItselfChangesNothing := by
  intro s h m l hready hstop htarget
  calc step s
      = exec (.jmp h m l) (s.fetched (.jmp h m l)) := step_of_readyFor hready
    _ = .next (s.takeSample.setIar (ofLimbs h m l)) := by rw [exec_jmp, fetched_setIar]
    _ = .next s := by rw [takeSample_of_no_stop hstop, htarget]; rfl

end Sys2Proof.Machine

/-!
The rest of the statements: reset (10_state.md section 6, 70_reset_and_hazards.md section 1), what `halted` and `stopped` are
(60_exceptions.md sections 1 and 5), and off the map and outside a well-formed configuration (20_memory.md sections 1 and 2).
-/

namespace Sys2Proof.Machine

/-! ## Reset -/

/-- Reset in a well-formed configuration meets the invariant: nothing is listed in memory and nothing has been recorded. -/
theorem resetWith_inv {c : Configuration} (hc : c.wellFormed = true) : (State.resetWith c).Inv :=
  inv_of_no_fault hc (wf_nil _) (wf_nil _) nofun nofun rfl rfl

theorem resetWith_readReg (c : Configuration) (r : Reg) : (State.resetWith c).readReg r = 0 := by
  cases r <;> rfl

/-- After reset every cell of a RAM mapping holds its `RAM_INIT` nibble, also a cell that an earlier mapping shadows. -/
theorem resetWith_ramCell {c : Configuration} {i : Nat} {m : Mapping} {init : List Nibble} (hm : c.map[i]? = some m)
    (ht : m.target = .ram init) (off : Nat) : (State.resetWith c).ramCell i off = init[off]? := by
  have hconfig : (State.resetWith c).config = c := rfl
  have hmem : (State.resetWith c).mem = [] := rfl
  simp only [State.ramCell, hconfig, hmem, hm, ht, get_nil]
  cases hr : resolve c.map (m.base + off) with
  | none => rfl
  | some h =>
    obtain ⟨hat, _, _, hoff⟩ := resolve_some hr
    by_cases hi : h.index = i
    · obtain rfl : m = h.mapping := by simpa [hi, hm] using hat
      have ho : h.offset = off := by omega
      simp only [hi, if_true, ramUnlisted_ram hr ht, ho]
    · simp only [hi, if_false]

theorem resetWith_dbgValue {c : Configuration} {i : Nat} {m : Mapping} (hm : c.map[i]? = some m)
    (ht : m.target = .debugOutput) : (State.resetWith c).dbgValue i = some 0 :=
  (get_nil _ i).trans (portUnlisted_port hm ht)

/-- Settles O34: the reset state lists no cell, so every cell holds what it holds unlisted. -/
theorem resetSatisfiesInvariant : Obligations.ResetSatisfiesInvariant :=
  ⟨resetWith_inv (defaultConfiguration_wellFormed []), fun c hc =>
    ⟨resetWith_inv hc, resetWith_readReg c, rfl, rfl, rfl, rfl, rfl, fun _ _ _ off hm ht => resetWith_ramCell hm ht off,
      fun _ _ => resetWith_dbgValue⟩⟩

/-- Settles O35: `assertReset` is the reset state of the same configuration but for the stop samples, on which the invariant does
not depend. -/
theorem resetRestoresFromAnyState : Obligations.ResetRestoresFromAnyState := fun _ hc =>
  ⟨(resetWith_inv hc).of_keeps_storage rfl rfl rfl rfl rfl rfl rfl, rfl, rfl, rfl⟩

/-! ## `halted` and `stopped` -/

/-- In `halted` there is a fault record, and `IAR` is one past the address in it (60_exceptions.md rule R163). -/
theorem State.Inv.fault_of_halted {s : State} (hs : s.Inv) (hr : s.run = .halted) :
    ∃ f, s.fault = some f ∧ s.iar = f.address + 1 := by
  obtain ⟨f, hf⟩ := Option.isSome_iff_exists.mp (hs.faultIffHalted.mp hr)
  obtain ⟨_, hiar⟩ := hs.faultRecord f hf
  exact ⟨f, hf, hiar⟩

theorem State.Inv.fault_of_stopped {s : State} (hs : s.Inv) (hr : s.run = .stopped) : s.fault = none := by
  simpa [hr] using hs.faultIffHalted

/-- Settles O8: outside `running` a step takes no cycle, and the invariant gives the fault record. -/
theorem haltedIsAbsorbing : Obligations.HaltedIsAbsorbing := fun _ hs hr =>
  ⟨step_of_not_running hs.configuration (by simp [hr]), hs.fault_of_halted hr, rfl⟩

theorem stopRequested_of_asserted {s : State} {later : List Bool} (hhas : s.config.hasStop = true)
    (hin : s.stopInput = true :: later) : s.stopRequested = true := by
  simp [State.stopRequested, hhas, hin]

theorem stop_of_asserted {s : State} {later : List Bool} (hhas : s.config.hasStop = true)
    (hin : s.stopInput = true :: later) : s.stop = { s with run := .stopped, stopInput := later } := by
  simp [State.stop, State.takeSample, hhas, hin]

theorem stopRequested_of_no_stop {s : State} (h : s.config.hasStop = false) : s.stopRequested = false := by
  simp [State.stopRequested, h]

/-- Without the stop input no step consumes a sample. -/
theorem step_stopInput_of_no_stop {s t : State} (hno : s.config.hasStop = false) (h : step s = .next t) :
    t.stopInput = s.stopInput := by
  obtain ⟨_, ⟨_, rfl⟩ | ⟨_, hstop, _⟩ | ⟨_, _, i, x, _, hi⟩⟩ := step_cases h
  · rfl
  · simp [stopRequested_of_no_stop hno] at hstop
  · obtain ⟨_, hin⟩ := exec_config_stopInput hi
    rw [hin, takeSample_of_no_stop hno, setIar_stopInput]

/-- Settles O9: an asserted sample is a stop requested; `stopped` takes no cycle and has no fault record; and without `HAS_STOP`
every step of a running machine takes a cycle, which ends in `running` or `halted`. -/
theorem stopInputStopsBeforeFetch : Obligations.StopInputStopsBeforeFetch := by
  refine ⟨fun s later hc hr hhas hin => ?_, fun s hs hr => ?_, fun s t hno hr h => ?_⟩
  · rw [step_of_stopRequested hc hr (stopRequested_of_asserted hhas hin), stop_of_asserted hhas hin]
  · exact ⟨step_of_not_running hs.configuration (by simp [hr]), hs.fault_of_stopped hr, rfl⟩
  · have hcycle : s.TakesCycle := ⟨(step_cases h).1, hr, stopRequested_of_no_stop hno⟩
    obtain ⟨_, _, hrun⟩ := haltsOnlyOnIllegalOpcode s t hcycle h
    exact ⟨by rcases hrun with hrun | hrun <;> simp [hrun], step_stopInput_of_no_stop hno h⟩

/-! ## Off the map -/

/-- Settles O27: an address that no mapping contains resolves to nothing. -/
theorem unmappedAccessIsZeroAndNoOp : Obligations.UnmappedAccessIsZeroAndNoOp := by
  intro s x v hoff
  have hr := resolve_none_iff.mpr hoff
  exact ⟨memRead_unmapped hr, memWrite_unmapped hr v⟩

/-! ## Well-formed configurations -/

theorem inSpace_iff (m : Mapping) : m.inSpace = true ↔ m.base ≤ 4095 ∧ m.base + m.length ≤ 4096 := by
  simp only [Mapping.inSpace, addrSpace, Bool.and_eq_true, decide_eq_true_eq]
  omega

theorem targetFits_iff (m : Mapping) :
    m.targetFits = true ↔
      (∀ buffer, m.target = .rom buffer → m.length ≤ 2 * buffer.length) ∧
        (∀ init, m.target = .ram init → init.length = m.length) ∧ (m.target = .debugOutput → 1 ≤ m.length) := by
  cases ht : m.target with
  | rom buffer => simp [Mapping.targetFits, ht]
  | ram init => simp [Mapping.targetFits, ht]
  | debugOutput => simp [Mapping.targetFits, ht]

/-- A configuration that is not well formed is refused, in every run state. -/
theorem step_of_not_wellFormed {s : State} (hc : s.config.wellFormed = false) :
    step s = .refused .illFormedConfiguration := by
  simp only [step, hc]

/-- Settles O29: a configuration is well formed if every mapping lies in the address space and its target fits. -/
theorem illFormedConfigurationIsRefused : Obligations.IllFormedConfigurationIsRefused := by
  refine ⟨fun c => ?_, fun _ => step_of_not_wellFormed⟩
  simp only [Configuration.wellFormed, Mapping.wellFormed, List.all_eq_true, Bool.and_eq_true, inSpace_iff, targetFits_iff]

end Sys2Proof.Machine
